-- ==== Sys2Proof/Word.lean ====
section
/-! DEFINITION. The words the MIC core is made of (spec 00_scope.md R7, 40_fixed_point.md R65).
Only widths stand here; every computation on them is in `Sys2Proof/Machine/`. -/

namespace Sys2Proof

/-- A byte of an output buffer (`u8`, R7). -/
abbrev Byte := BitVec 8

/-- The two's-complement pattern of a signed 8-bit integer (`i8`, R7): a displacement. -/
abbrev I8 := BitVec 8

/-- The two's-complement pattern of a signed 16-bit integer (`i16`, R7): a sample or a tilt. -/
abbrev I16 := BitVec 16

/-- An unsigned 16-bit integer (`u16`, R7): a tick duration in milliseconds. -/
abbrev U16 := BitVec 16

/-- A Q32.32 fixed-point value, held as the 64-bit two's-complement pattern of its raw integer
(R65, R66); the number it stands for is raw / 2^32. -/
abbrev FX := BitVec 64

/-- A command word as presented on the port `cmd` (30_encoding.md R45). -/
abbrev CmdWord := BitVec 64

end Sys2Proof
end

