-- ==== Sys2Proof/Syntax.lean ====
section
/-! DEFINITION. The instructions of the MIC core (spec/opcode_table.json, 30_encoding.md R50), the reasons a
word is no instruction (R51), and the textual form of a command as data (R54). -/

namespace Sys2Proof

/-- The three operations of the block, one constructor for each row of the opcode table. The operands are
the bit patterns of the types the contracts give them (R49), so every operand of every term is in range. -/
inductive Instr where
  /-- `KIN.UPDATE sx, sy, tick_ms` (41_kinematics.md R85): a sample and the tick in milliseconds. -/
  | kinUpdate (sx sy : I16) (tickMs : U16)
  /-- `MOUSE.ENCODE dx, dy, a, b` (42_mouse_encoder.md R100): a displacement and two buttons. -/
  | mouseEncode (dx dy : I8) (a b : Bool)
  /-- `KEY.ENCODE tilt_x, a, b` (43_keyboard_encoder.md R110): a tilt and two buttons. -/
  | keyEncode (tiltX : I16) (a b : Bool)
  deriving DecidableEq, Repr

/-- Why a 64-bit word is illegal (R51): the two kinds of word that match no row of the opcode map. -/
inductive IllegalReason where
  /-- `OP` (bits 63:56) is 0x00 or in 0x04..0xFF. -/
  | unknownOp (op : BitVec 8)
  /-- `OP` is legal and some must-be-zero bit of that operation's format is set. -/
  | mustBeZero (op : BitVec 8)
  deriving DecidableEq, Repr

/-- What a word decodes to (R52): an instruction, or illegal for a named reason. -/
inductive Decoded where
  | instr (i : Instr)
  | illegal (why : IllegalReason)
  deriving DecidableEq, Repr

/-- A move of the host that the block takes part in (00_scope.md R8). The third move, reading the output
ports, changes nothing (10_state.md R25) and is the function `State.ports`. -/
inductive HostMove where
  /-- Present a command word and have it accepted (10_state.md R24). -/
  | command (w : CmdWord)
  /-- Assert `rst` at a rising edge (70_reset_and_hazards.md R145); `RESET` in the assembler text. -/
  | reset
  deriving DecidableEq, Repr

/-- An operand of `MOUSE.ENCODE` in the assembler text (R54): an integer, or the value the host read from
the port `dx` or `dy` after the previous command. -/
inductive AsmOperand where
  | int (n : Int)
  | portDX
  | portDY
  deriving DecidableEq, Repr

/-- One line of assembler text (R54), its operands integers as written, before any range check. -/
inductive AsmLine where
  | kinUpdate (sx sy tickMs : Int)
  | mouseEncode (dx dy : AsmOperand) (a b : Bool)
  | keyEncode (tiltX : Int) (a b : Bool)
  /-- `RESET`: the reset event, not a command. -/
  | reset
  deriving DecidableEq, Repr

/-- What a line of assembler text yields (R54): nothing (blank, or a comment only), a host move, or an error. -/
inductive Assembled where
  | nothing
  | move (m : HostMove)
  /-- Not of the form mnemonic, operands separated by commas (log 12). -/
  | syntaxError
  /-- An operand outside the range of R49: an assembly error, not a wrapped value. -/
  | outOfRange
  deriving DecidableEq, Repr

end Sys2Proof
end

