-- ==== Sys2Proof/Decode.lean ====
section
/-! DEFINITION. The decoder and the encoder (spec 30_encoding.md R45 to R52, opcode_table.json). `decode` is total
on 64-bit words and names why a word is illegal; `encode` writes the word of an instruction. -/

namespace Sys2Proof

/-- A row of the opcode map (R50): a word selects the row exactly when `w &&& mask = pattern`. -/
structure OpcodeRow where
  mnemonic : String
  mask : CmdWord
  pattern : CmdWord
  deriving DecidableEq, Repr

/-- The row of `KIN.UPDATE` (R50). -/
def rowKinUpdate : OpcodeRow := ⟨"KIN.UPDATE", 0xFFFF000000000000#64, 0x0100000000000000#64⟩

/-- The row of `MOUSE.ENCODE` (R50). -/
def rowMouseEncode : OpcodeRow := ⟨"MOUSE.ENCODE", 0xFFFCFFFFFF00FF00#64, 0x0200000000000000#64⟩

/-- The row of `KEY.ENCODE` (R50). -/
def rowKeyEncode : OpcodeRow := ⟨"KEY.ENCODE", 0xFFFCFFFFFFFF0000#64, 0x0300000000000000#64⟩

/-- The whole opcode map (R50). -/
def opcodeMap : List OpcodeRow := [rowKinUpdate, rowMouseEncode, rowKeyEncode]

/-- Whether a word selects a row (R50). -/
def OpcodeRow.selects (r : OpcodeRow) (w : CmdWord) : Bool := w &&& r.mask == r.pattern

/-- Field `OP`, bits 63:56 (R45). -/
def fieldOp (w : CmdWord) : BitVec 8 := w.extractLsb' 56 8

/-- Field `BB`, bit 49: button B, 1 = pressed (R45). -/
def fieldBB (w : CmdWord) : Bool := w.getLsbD 49

/-- Field `BA`, bit 48: button A, 1 = pressed (R45). -/
def fieldBA (w : CmdWord) : Bool := w.getLsbD 48

/-- Field `F2`, bits 47:32 (R45). -/
def fieldF2 (w : CmdWord) : BitVec 16 := w.extractLsb' 32 16

/-- Field `F1`, bits 31:16 (R45). -/
def fieldF1 (w : CmdWord) : BitVec 16 := w.extractLsb' 16 16

/-- Field `F0`, bits 15:0 (R45). -/
def fieldF0 (w : CmdWord) : BitVec 16 := w.extractLsb' 0 16

/-- The lower half of `F1`, bits 23:16: `dy` of format M (R47). -/
def fieldF1Low (w : CmdWord) : BitVec 8 := w.extractLsb' 16 8

/-- The lower half of `F0`, bits 7:0: `dx` of format M (R47). -/
def fieldF0Low (w : CmdWord) : BitVec 8 := w.extractLsb' 0 8

/-- Why a word that selects no row is illegal (R51). -/
def whyIllegal (w : CmdWord) : IllegalReason :=
  if fieldOp w = 0x01#8 ∨ fieldOp w = 0x02#8 ∨ fieldOp w = 0x03#8 then .mustBeZero (fieldOp w)
  else .unknownOp (fieldOp w)

/-- Decoding (R52): the three rows in turn, else illegal. Operands per R49. -/
def decode (w : CmdWord) : Decoded :=
  if rowKinUpdate.selects w then .instr (.kinUpdate (fieldF0 w) (fieldF1 w) (fieldF2 w))
  else if rowMouseEncode.selects w then
    .instr (.mouseEncode (fieldF0Low w) (fieldF1Low w) (fieldBA w) (fieldBB w))
  else if rowKeyEncode.selects w then .instr (.keyEncode (fieldF0 w) (fieldBA w) (fieldBB w))
  else .illegal (whyIllegal w)

/-- `OP` of an instruction (R50). -/
def Instr.opcode : Instr → BitVec 8
  | .kinUpdate _ _ _ => 0x01#8
  | .mouseEncode _ _ _ _ => 0x02#8
  | .keyEncode _ _ _ => 0x03#8

/-- The row of the opcode map that is an instruction's own (R50). -/
def Instr.row : Instr → OpcodeRow
  | .kinUpdate _ _ _ => rowKinUpdate
  | .mouseEncode _ _ _ _ => rowMouseEncode
  | .keyEncode _ _ _ => rowKeyEncode

/-- A pattern placed with its least significant bit at bit `at_` of a command word. -/
def placeAt {n : Nat} (at_ : Nat) (v : BitVec n) : CmdWord := v.setWidth 64 <<< at_

/-- The pattern of a Boolean field: 1 = true. -/
def boolBit (b : Bool) : BitVec 1 := if b then 1#1 else 0#1

/-- Encoding (R52): each operand's pattern in its own field, every other bit zero. -/
def encode : Instr → CmdWord
  | .kinUpdate sx sy t => placeAt 56 0x01#8 ||| placeAt 32 t ||| placeAt 16 sy ||| placeAt 0 sx
  | .mouseEncode dx dy a b =>
      placeAt 56 0x02#8 ||| placeAt 49 (boolBit b) ||| placeAt 48 (boolBit a) ||| placeAt 16 dy ||| placeAt 0 dx
  | .keyEncode x a b =>
      placeAt 56 0x03#8 ||| placeAt 49 (boolBit b) ||| placeAt 48 (boolBit a) ||| placeAt 0 x

/-- The instruction `decode` reads from a table word (one 64-bit word, bit 0 the least significant, R45): the
low `nbits` bits of `w`, every bit above them zero; none where the word is illegal. -/
def decodeTableWord (nbits w : Nat) : Option Instr :=
  match decode (BitVec.ofNat 64 (w % 2 ^ nbits)) with
  | .instr i => some i
  | .illegal _ => none

end Sys2Proof
end

