-- ==== Sys2Proof/Config.lean ====
section
/-! DEFINITION. The constants of the MIC core: those whose value is part of the hardware, and those the spec
leaves OPEN (00_scope.md R6, 10_state.md R20). An OPEN constant is an `opaque` without a body: nothing can be
proved of its value, so what is proved of the machine holds for every configuration. -/

namespace Sys2Proof

/-- `MS_PER_S`, the divisor that turns milliseconds into seconds (R6, R20). -/
def msPerS : Int := 1000

/-- `DISP_MAX` (R6, R20); `DISP_MIN` is its negative. -/
def dispMax : Int := 127

/-- `DISP_MIN` (R6). -/
def dispMin : Int := -127

/-- `THRESHOLD`, the tilt threshold (R6, R20). -/
def threshold : Int := 300

/-- `KP_LEN`, the key packet capacity in bytes (R6). -/
abbrev kpLen : Nat := 11

/-- `MP_LEN`, the mouse packet length in bytes (R6). -/
abbrev mpLen : Nat := 3

/-- `Y_SIGN`: its two legal values (R20, R21). -/
inductive Sign where
  | plus
  | minus
  deriving DecidableEq, Repr, Inhabited

/-- `RND`, the rounding of every fixed-point narrowing: the one admitted value (40_fixed_point.md R74). -/
inductive Rounding where
  /-- Toward minus infinity. -/
  | floor
  deriving DecidableEq, Repr, Inhabited

/-- The build-time constants (R6, R20). Fixed for the life of the hardware: no command and no reset
changes them. Which values are well-formed is `Config.wf`. -/
structure Config where
  /-- `Y_SIGN`. -/
  ySign : Sign
  /-- `SCALING_FACTOR`. -/
  scalingFactor : FX
  /-- `MAX_ACCEL`, the divisor. -/
  maxAccel : FX
  /-- `MAX_MOVEMENT_UNIT`. -/
  maxMovementUnit : FX
  /-- `RND`. -/
  rnd : Rounding
  /-- `LAT(KIN.UPDATE)` (70_reset_and_hazards.md R158). Read by the clocked interface only. -/
  latKin : Nat
  /-- `LAT(MOUSE.ENCODE)`. -/
  latMouse : Nat
  /-- `LAT(KEY.ENCODE)`. -/
  latKey : Nat
  /-- `LAT` of an illegal word (R51, R158). -/
  latIllegal : Nat
  deriving DecidableEq, Repr

/-- OPEN value of `Y_SIGN` (R6, R20; log 1). -/
opaque Config.openYSign : Sign
/-- OPEN value of `SCALING_FACTOR` (R6, R20; log 1). -/
opaque Config.openScalingFactor : FX
/-- OPEN value of `MAX_ACCEL`, as its raw less one: every raw from 1 to 2^63 - 1 and no other is admitted
(R21; log 1). -/
opaque Config.openMaxAccelLessOne : Fin 9223372036854775807
/-- OPEN value of `MAX_MOVEMENT_UNIT` (R6, R20; log 1). -/
opaque Config.openMaxMovementUnit : FX
/-- OPEN values of `LAT(op)`, each less one, so that `LAT(op) >= 1` (R158; log 9). -/
opaque Config.openLatKinLessOne : Nat
/-- See `openLatKinLessOne`. -/
opaque Config.openLatMouseLessOne : Nat
/-- See `openLatKinLessOne`. -/
opaque Config.openLatKeyLessOne : Nat
/-- See `openLatKinLessOne`. -/
opaque Config.openLatIllegalLessOne : Nat

/-- The configuration the hardware was built with: every OPEN constant at its unknown value. -/
def Config.hardware : Config where
  ySign := Config.openYSign
  scalingFactor := Config.openScalingFactor
  maxAccel := BitVec.ofNat 64 (Config.openMaxAccelLessOne.val + 1)
  maxMovementUnit := Config.openMaxMovementUnit
  rnd := .floor
  latKin := Config.openLatKinLessOne + 1
  latMouse := Config.openLatMouseLessOne + 1
  latKey := Config.openLatKeyLessOne + 1
  latIllegal := Config.openLatIllegalLessOne + 1

end Sys2Proof
end

