-- ==== Sys2Proof/Machine/Operands.lean ====
section
/-! DEFINITION. How an operand's bit pattern is read (spec 30_encoding.md R49, 00_scope.md R7). No operand is scaled,
shifted or combined with state before the operation's own rule uses it. -/

namespace Sys2Proof.Machine

/-- `sext_16`: a sample or a tilt as a signed integer (R49). -/
def sext16 (v : I16) : Int := v.toInt

/-- `zext_16`: the tick in milliseconds as an unsigned integer (R49). -/
def zext16 (v : U16) : Int := v.toNat

/-- `sext_8`: a displacement as a signed integer (R49). -/
def sext8 (v : I8) : Int := v.toInt

/-- `u8(n)`: the 8-bit two's-complement pattern of an integer, n mod 256 (R7). -/
def u8 (n : Int) : Byte := BitVec.ofInt 8 n

/-- `Y_SIGN * n` (41_kinematics.md R85, R89). -/
def applySign (s : Sign) (n : Int) : Int :=
  match s with
  | .plus => n
  | .minus => -n

/-- A Boolean operand shifted to bit `k` of a byte: `a << k` (42_mouse_encoder.md R100). -/
def buttonAt (k : Nat) (b : Bool) : Byte := if b then 1#8 <<< k else 0#8

end Sys2Proof.Machine
end

