-- ==== Sys2Proof/Machine/State.lean ====
section
/-! DEFINITION. The state of the MIC core (spec 10_state.md), the reasons a step can stop, and the state after
reset. Plain data throughout. -/

namespace Sys2Proof.Machine

/-- The architectural state: exactly the 388 bits of 10_state.md R10, twelve named registers. -/
structure Regs where
  /-- Previous sample, x (R11). -/
  pax : FX
  /-- Previous sample, y, after `Y_SIGN` (R11). -/
  pay : FX
  /-- Velocity, x (R12). -/
  vx : FX
  /-- Velocity, y (R12). -/
  vy : FX
  /-- Displacement, x (R13). -/
  dx : I8
  /-- Displacement, y (R13). -/
  dy : I8
  /-- Latch of channel A, true = active (R14). -/
  ea : Bool
  /-- Latch of channel B (R14). -/
  eb : Bool
  /-- Latch of channel L, tilt left (R14). -/
  el : Bool
  /-- Latch of channel R, tilt right (R14). -/
  er : Bool
  /-- The 3-byte mouse frame, in wire order (R15, 20_memory.md R31). -/
  mp : Vector Byte mpLen
  /-- The 11-byte key packet (R16, 20_memory.md R32). -/
  kp : Vector Byte kpLen
  deriving DecidableEq, Repr

/-- The value of every register after reset (R26): zero, latches inactive. -/
def Regs.zero : Regs where
  pax := 0#64
  pay := 0#64
  vx := 0#64
  vy := 0#64
  dx := 0#8
  dy := 0#8
  ea := false
  eb := false
  el := false
  er := false
  mp := #v[0#8, 0#8, 0#8]
  kp := #v[0#8, 0#8, 0#8, 0#8, 0#8, 0#8, 0#8, 0#8, 0#8, 0#8, 0#8]

/-- The state a step works on: the architectural registers, and the two parameters of the step relation that
10_state.md R28 says are not state, which ride here because the host's step takes one argument (logs 1, 2). -/
structure State extends Regs where
  /-- MODEL'S OWN FIELD: the build-time constants (R20). Never written (R20, R26). -/
  cfg : Config
  /-- MODEL'S OWN FIELD: the host's moves not yet taken, the next one first (00_scope.md R8). -/
  inputs : List HostMove
  deriving DecidableEq, Repr

/-- Why the machine stops without a successor state. -/
inductive Fault where
  /-- `FX_OVERFLOW`, raised by `KIN.UPDATE` only, when a fixed-point primitive it evaluates has a raw result
  outside -2^63 .. 2^63 - 1 (40_fixed_point.md R73, 60_exceptions.md R131). SAFE: the rules give no register a
  value after it, and the model gives none (log 5). -/
  | fxOverflow
  deriving DecidableEq, Repr

/-- Why a step is refused. -/
inductive Refusal where
  /-- An instruction of the table without a meaning; raised by no arm of `exec` (every arm has one). SAFE. -/
  | notModelled (mnemonic : String)
  /-- Raised by `step` for a command word that decodes to no operation (00_scope.md R9(c), 30_encoding.md R51,
  93_implementation_defined.md item 2). SAFE: the hardware changes nothing, which no claim can use (log 4). -/
  | illegalWord (why : IllegalReason)
  /-- Raised by `KIN.UPDATE` under a configuration with `MAX_ACCEL.raw <= 0`, for which the spec does not define
  it (10_state.md R21, 93_implementation_defined.md item 4). SAFE (log 6). -/
  | illFormedConfig
  deriving DecidableEq, Repr

/-- The machine right after reset (R26): every register zero, the hardware's own constants (which reset does
not touch and whose OPEN values nothing reveals, log 1), and no host move pending (log 2). -/
def State.reset : State where
  toRegs := Regs.zero
  cfg := Config.hardware
  inputs := []

end Sys2Proof.Machine
end

