-- ==== Sys2Proof/Machine/Ops.lean ====
section
/-! DEFINITION. The named operations over the registers: one register write for each command (10_state.md R22: all the
writes of a command take effect together), the reset of every register (R26), the taking of the host's next move, and
the one fault. The block has no traps, so there is no exception entry and no return (60_exceptions.md R135, R136). -/

namespace Sys2Proof.Machine

/-- What `KIN.UPDATE` writes for one axis: the sample, the velocity, the displacement (41_kinematics.md R85). -/
structure LaneResult where
  sample : FX
  velocity : FX
  displacement : I8
  deriving DecidableEq, Repr

/-- The writes of `KIN.UPDATE` (10_state.md R22). -/
def State.writeKinematics (s : State) (x y : LaneResult) : State :=
  { s with pax := x.sample, pay := y.sample, vx := x.velocity, vy := y.velocity,
           dx := x.displacement, dy := y.displacement }

/-- The writes of `MOUSE.ENCODE` (10_state.md R22). -/
def State.writeMousePacket (s : State) (frame : Vector Byte mpLen) : State :=
  { s with mp := frame }

/-- The writes of `KEY.ENCODE` (10_state.md R22): the whole packet and the four latches. -/
def State.writeKeyPacket (s : State) (packet : Vector Byte kpLen) (a b l r : Bool) : State :=
  { s with kp := packet, ea := a, eb := b, el := l, er := r }

/-- Reset (10_state.md R26, 70_reset_and_hazards.md R145): every register at its reset value; the configuration
constants and the host's later moves are not affected. -/
def State.resetRegs (s : State) : State := { s with toRegs := Regs.zero }

/-- The state once the host's next move is taken: the moves after it are left. -/
def State.withInputs (s : State) (rest : List HostMove) : State := { s with inputs := rest }

/-- `fault FX_OVERFLOW` (00_scope.md R9(b), 60_exceptions.md R131): no successor state and no record. -/
def raiseFxOverflow : Host.Outcome State Fault Refusal := .fault .fxOverflow

end Sys2Proof.Machine
end

