-- ==== Sys2Proof/Machine/Keyboard.lean ====
section
/-! DEFINITION. The keyboard edge encoder: `KEY.ENCODE` (spec 43_keyboard_encoder.md), the layout of the key packet
(20_memory.md R32, R33), and the two ways a receiver reads it (R34, R120). -/

namespace Sys2Proof.Machine

/-- The four channels, in the source's fixed order (R111). -/
inductive Channel where
  | a
  | b
  | l
  | r
  deriving DecidableEq, Repr

/-- The channels in their order: A, B, left, right (20_memory.md R32). -/
def channels : List Channel := [.a, .b, .l, .r]

/-- `MAKE_c` (R111). -/
def Channel.makeCode : Channel → List Byte
  | .a => [0x1A#8]
  | .b => [0x22#8]
  | .l => [0xE0#8, 0x6B#8]
  | .r => [0xE0#8, 0x74#8]

/-- `BREAK_c` (R111). -/
def Channel.breakCode : Channel → List Byte
  | .a => [0xF0#8, 0x1A#8]
  | .b => [0xF0#8, 0x22#8]
  | .l => [0xE0#8, 0xF0#8, 0x6B#8]
  | .r => [0xE0#8, 0xF0#8, 0x74#8]

/-- `OFF_c`, the first index of the channel's range (R111, 20_memory.md R32). -/
def Channel.offset : Channel → Nat
  | .a => 0
  | .b => 2
  | .l => 4
  | .r => 7

/-- `LEN_c`, the length of the channel's range (R111, 20_memory.md R32). -/
def Channel.length : Channel → Nat
  | .a => 2
  | .b => 2
  | .l => 3
  | .r => 3

/-- `E_c`, the channel's latch (R111). -/
def Channel.latch (c : Channel) (s : Regs) : Bool :=
  match c with
  | .a => s.ea
  | .b => s.eb
  | .l => s.el
  | .r => s.er

/-- `cond_c`, the activation condition (R111, R112): strict signed comparisons with one threshold. -/
def Channel.condition (c : Channel) (tiltX : I16) (a b : Bool) : Bool :=
  match c with
  | .a => a
  | .b => b
  | .l => sext16 tiltX < -threshold
  | .r => sext16 tiltX > threshold

/-- What a channel does in one command (R113): exactly one of the three. -/
inductive KeyEvent where
  | nothing
  | make
  | release
  deriving DecidableEq, Repr

/-- The transition rule of one channel, from its latch and condition to its event and new latch (R113). -/
def transition (latch cond : Bool) : KeyEvent × Bool :=
  match latch, cond with
  | false, true => (.make, true)
  | true, false => (.release, false)
  | false, false => (.nothing, false)
  | true, true => (.nothing, true)

/-- The bytes of an event: the make sequence, the break sequence, or none (R113). -/
def Channel.emission (c : Channel) : KeyEvent → List Byte
  | .nothing => []
  | .make => c.makeCode
  | .release => c.breakCode

/-- What channel c does in `KEY.ENCODE tilt_x, a, b`, from the latch before the command (R110). -/
def Channel.event (c : Channel) (tiltX : I16) (a b : Bool) (s : Regs) : KeyEvent :=
  (transition (c.latch s) (c.condition tiltX a b)).1

/-- The channel's latch after `KEY.ENCODE tilt_x, a, b` (R110). -/
def Channel.nextLatch (c : Channel) (tiltX : I16) (a b : Bool) (s : Regs) : Bool :=
  (transition (c.latch s) (c.condition tiltX a b)).2

/-- `put(c, bytes)` of R110: bytes at consecutive indices from `off`. -/
def putBytes (packet : Vector Byte kpLen) (off : Nat) : List Byte → Vector Byte kpLen
  | [] => packet
  | byte :: rest => putBytes (packet.setIfInBounds off byte) (off + 1) rest

/-- The packet before any channel writes: zero in all 11 bytes, every time (R110, R114). -/
def zeroPacket : Vector Byte kpLen := #v[0#8, 0#8, 0#8, 0#8, 0#8, 0#8, 0#8, 0#8, 0#8, 0#8, 0#8]

/-- The packet once the channels of a list have written their emissions, in that order (R110). -/
def putEmissions (tiltX : I16) (a b : Bool) (s : Regs) : List Channel → Vector Byte kpLen → Vector Byte kpLen
  | [], packet => packet
  | c :: rest, packet =>
      putEmissions tiltX a b s rest (putBytes packet c.offset (c.emission (c.event tiltX a b s)))

/-- The key packet of `KEY.ENCODE tilt_x, a, b` (R110, R114). -/
def keyPacket (tiltX : I16) (a b : Bool) (s : Regs) : Vector Byte kpLen :=
  putEmissions tiltX a b s channels zeroPacket

/-- `KEY.ENCODE tilt_x, a, b` (R110): all 11 bytes and the four latches, and nothing else. -/
def execKeyEncode (tiltX : I16) (a b : Bool) (s : State) : Host.Outcome State Fault Refusal :=
  .next (s.writeKeyPacket (keyPacket tiltX a b s.toRegs)
    (Channel.nextLatch .a tiltX a b s.toRegs) (Channel.nextLatch .b tiltX a b s.toRegs)
    (Channel.nextLatch .l tiltX a b s.toRegs) (Channel.nextLatch .r tiltX a b s.toRegs))

/-- The channel's range of a packet: `LEN_c` bytes from `OFF_c` (R120). -/
def Channel.range (c : Channel) (packet : Vector Byte kpLen) : List Byte :=
  (packet.toList.drop c.offset).take c.length

/-- `seq` of 20_memory.md R34 on the range's bytes: the longest prefix with no zero byte. -/
def nonzeroPrefix : List Byte → List Byte
  | [] => []
  | byte :: rest => if byte = 0#8 then [] else byte :: nonzeroPrefix rest

/-- `kstream(KP)` (20_memory.md R34): the bytes a receiver must see, the zero filler removed. -/
def kstream (packet : Vector Byte kpLen) : List Byte :=
  channels.flatMap fun c => nonzeroPrefix (c.range packet)

/-- `kev(c)` (R120): what the channel did, read back from its range; none for bytes that no `KEY.ENCODE` leaves. -/
def Channel.readEvent (c : Channel) (packet : Vector Byte kpLen) : Option KeyEvent :=
  if c.range packet = List.replicate c.length 0#8 then some .nothing
  else if c.range packet = c.makeCode ++ [0#8] then some .make
  else if c.range packet = c.breakCode then some .release
  else none

/-- Whether the packet holds any key event: `KP != 0` (R120); there is no flag for it (10_state.md R19). -/
def keyEventPending (packet : Vector Byte kpLen) : Bool := packet != zeroPacket

end Sys2Proof.Machine
end

