-- ==== Sys2Proof/Machine/FixedPoint.lean ====
section
/-! DEFINITION. The fixed-point primitives (spec 40_fixed_point.md): exact integer arithmetic on raws, then a range
check. `none` is overflow (R73). -/

namespace Sys2Proof.Machine

/-- 2^32, the raw of the number 1 (R66). -/
def fxOne : Int := 4294967296

/-- The least raw, -2^63 (R66). -/
def fxMinRaw : Int := -9223372036854775808

/-- The greatest raw, 2^63 - 1 (R66). -/
def fxMaxRaw : Int := 9223372036854775807

/-- The raw integer of an FX value (R66). -/
def fxRaw (a : FX) : Int := a.toInt

/-- A raw lies in the FX range (R66). -/
abbrev fxInRange (r : Int) : Prop := fxMinRaw ≤ r ∧ r ≤ fxMaxRaw

/-- The FX value of a raw integer, or overflow when the raw lies outside the range (R66, R73). -/
def fxNarrow (r : Int) : Option FX :=
  if fxInRange r then some (BitVec.ofInt 64 r) else none

/-- The rounded quotient of exact integers, for a positive divisor: the one place where a fixed-point result is
rounded (R74). Lean's integer `/` with a positive divisor is the greatest integer not above the quotient. -/
def roundedQuotient (rnd : Rounding) (n d : Int) : Int :=
  match rnd with
  | .floor => n / d

/-- `fx_int(n)`, raw `n * 2^32` (R67). Exact for -2^31 <= n <= 2^31 - 1; the hardware uses no other n. -/
def fxInt (n : Int) : FX := BitVec.ofInt 64 (n * fxOne)

/-- `fx_add` (R68). -/
def fxAdd (a b : FX) : Option FX := fxNarrow (fxRaw a + fxRaw b)

/-- `fx_sub` (R68). -/
def fxSub (a b : FX) : Option FX := fxNarrow (fxRaw a - fxRaw b)

/-- `fx_mul` (R69): the exact product, rounded to a multiple of one ulp. -/
def fxMul (rnd : Rounding) (a b : FX) : Option FX :=
  fxNarrow (roundedQuotient rnd (fxRaw a * fxRaw b) fxOne)

/-- `fx_div` (R70), defined for `b.raw > 0` only. No value is given for another divisor; the machine never
evaluates it there, because `KIN.UPDATE` first checks `MAX_ACCEL.raw > 0` (log 13). -/
def fxDiv (rnd : Rounding) (a b : FX) : Option FX :=
  if 0 < fxRaw b then fxNarrow (roundedQuotient rnd (fxRaw a * fxOne) (fxRaw b)) else none

/-- `fx_floor` (R71): the source's "Truncates to integer". It cannot overflow. -/
def fxFloor (rnd : Rounding) (a : FX) : Int := roundedQuotient rnd (fxRaw a) fxOne

/-- `clamp127` (R72): hard saturation. -/
def clamp127 (n : Int) : Int :=
  if n < dispMin then dispMin else if n > dispMax then dispMax else n

end Sys2Proof.Machine
end

