-- ==== Sys2Proof/WellFormed.lean ====
section
/-! DEFINITION. What is well-formed, as Boolean checks: a configuration (10_state.md R21, 70_reset_and_hazards.md
R158), a command word field by field (30_encoding.md R45 to R48), and an assembler line (R49, R54). An `Instr`
needs no check: its operand types admit exactly the ranges of R49 (log 8). -/

namespace Sys2Proof

/-- `MAX_ACCEL.raw > 0` (R21): the condition under which `KIN.UPDATE` is defined. -/
def Config.maxAccelPositive (c : Config) : Bool := 0 < c.maxAccel.toInt

/-- The whole well-formedness of a configuration: R21 (the sign and the FX ranges hold by type) and
`LAT(op) >= 1` of R158. -/
def Config.wf (c : Config) : Bool :=
  c.maxAccelPositive && 1 ≤ c.latKin && 1 ≤ c.latMouse && 1 ≤ c.latKey && 1 ≤ c.latIllegal

/-- Format K (R46): `OP` = 0x01 and bits 55:48 zero. -/
def CmdWord.isFormatK (w : CmdWord) : Bool :=
  w.extractLsb' 56 8 == 0x01#8 && w.extractLsb' 48 8 == 0#8

/-- Format M (R47): `OP` = 0x02 and bits 55:50, 47:32, 31:24 and 15:8 zero. -/
def CmdWord.isFormatM (w : CmdWord) : Bool :=
  w.extractLsb' 56 8 == 0x02#8 && w.extractLsb' 50 6 == 0#6 && w.extractLsb' 32 16 == 0#16
    && w.extractLsb' 24 8 == 0#8 && w.extractLsb' 8 8 == 0#8

/-- Format E (R48): `OP` = 0x03 and bits 55:50 and 47:16 zero. -/
def CmdWord.isFormatE (w : CmdWord) : Bool :=
  w.extractLsb' 56 8 == 0x03#8 && w.extractLsb' 50 6 == 0#6 && w.extractLsb' 16 32 == 0#32

/-- A word of one of the three formats (R45): every other word is illegal (R51). -/
def CmdWord.wf (w : CmdWord) : Bool := w.isFormatK || w.isFormatM || w.isFormatE

/-- The range of a signed 16-bit operand (R49). -/
def inI16 (n : Int) : Bool := -32768 ≤ n && n ≤ 32767

/-- The range of an unsigned 16-bit operand (R49). -/
def inU16 (n : Int) : Bool := 0 ≤ n && n ≤ 65535

/-- The range of a signed 8-bit operand (R49). -/
def inI8 (n : Int) : Bool := -128 ≤ n && n ≤ 127

/-- A displacement operand as written: an integer in range, or a port, whose value is an `i8`. -/
def AsmOperand.wf : AsmOperand → Bool
  | .int n => inI8 n
  | .portDX => true
  | .portDY => true

/-- A line all of whose operands are in the ranges of R49; any other line is an assembly error (R54). -/
def AsmLine.wf : AsmLine → Bool
  | .kinUpdate sx sy t => inI16 sx && inI16 sy && inU16 t
  | .mouseEncode dx dy _ _ => dx.wf && dy.wf
  | .keyEncode x _ _ => inI16 x
  | .reset => true

end Sys2Proof
end

