-- ==== Sys2Proof/Machine/Kinematics.lean ====
section
/-! DEFINITION. The kinematics unit: `KIN.UPDATE` (spec 41_kinematics.md). -/

namespace Sys2Proof.Machine

/-- Step 1 of R85, milliseconds to seconds: `fx_div(fx_int(tick_ms), fx_int(1000))`. -/
def tickSeconds (rnd : Rounding) (tickMs : U16) : Option FX :=
  fxDiv rnd (fxInt (zext16 tickMs)) (fxInt msPerS)

/-- `cx` of R85: the x sample as FX. -/
def sampleX (sx : I16) : FX := fxInt (sext16 sx)

/-- `cy` of R85: the y sample as FX, `Y_SIGN` applied before the difference is taken (R89). -/
def sampleY (c : Config) (sy : I16) : FX := fxInt (applySign c.ySign (sext16 sy))

/-- The lane computation of R85, steps 3 to 8, in its order of evaluation and of rounding (R88, R90). `c` is the
sample, `pa` the previous one, `v` the velocity, `dt` the tick in seconds. `none`: some primitive overflowed. -/
def lane (cfg : Config) (c pa v dt : FX) : Option LaneResult := do
  let a ← fxSub c pa
  let dv ← fxMul cfg.rnd a dt
  let v1 ← fxAdd v dv
  let d1 ← fxMul cfg.rnd v1 dt
  let dvdt ← fxMul cfg.rnd dv dt
  let d2 ← fxDiv cfg.rnd dvdt (fxInt 2)
  let dist ← fxAdd d1 d2
  let o1 ← fxMul cfg.rnd dist cfg.scalingFactor
  let o2 ← fxDiv cfg.rnd o1 cfg.maxAccel
  let o3 ← fxMul cfg.rnd o2 cfg.maxMovementUnit
  some { sample := c, velocity := v1, displacement := u8 (clamp127 (fxFloor cfg.rnd o3)) }

/-- Both lanes of a `KIN.UPDATE`: they share `dt` and the constants and nothing else (R86). -/
def kinematics (sx sy : I16) (tickMs : U16) (s : State) : Option (LaneResult × LaneResult) := do
  let dt ← tickSeconds s.cfg.rnd tickMs
  let x ← lane s.cfg (sampleX sx) s.pax s.vx dt
  let y ← lane s.cfg (sampleY s.cfg sy) s.pay s.vy dt
  some (x, y)

/-- `KIN.UPDATE sx, sy, tick_ms` (R85). Refused under a configuration for which the spec does not define it (R21);
`FX_OVERFLOW` when any primitive of either lane overflowed, whichever (60_exceptions.md R134). -/
def execKinUpdate (sx sy : I16) (tickMs : U16) (s : State) : Host.Outcome State Fault Refusal :=
  if s.cfg.maxAccelPositive then
    match kinematics sx sy tickMs s with
    | some (x, y) => .next (s.writeKinematics x y)
    | none => raiseFxOverflow
  else .refused .illFormedConfig

end Sys2Proof.Machine
end

