-- ==== Sys2Proof/Machine/Mouse.lean ====
section
/-! DEFINITION. The mouse packet encoder: `MOUSE.ENCODE` (spec 42_mouse_encoder.md), and the receiver's reading of a
frame (R103). -/

namespace Sys2Proof.Machine

/-- Bits 7:6 of a byte, as a byte (`X[7:6]` of R100). -/
def highTwo (v : Byte) : Byte := v >>> 6

/-- The 3-byte frame of a displacement and two buttons (R100). An operand already is its pattern `u8(n)`. -/
def mouseFrame (dx dy : I8) (a b : Bool) : Vector Byte mpLen :=
  #v[0x40#8 ||| buttonAt 5 a ||| buttonAt 4 b ||| (highTwo dy <<< 2) ||| highTwo dx,
     dx &&& 0x3F#8,
     dy &&& 0x3F#8]

/-- `MOUSE.ENCODE dx, dy, a, b` (R100): writes all three bytes of `MP`, every time, and nothing else. -/
def execMouseEncode (dx dy : I8) (a b : Bool) (s : State) : Host.Outcome State Fault Refusal :=
  .next (s.writeMousePacket (mouseFrame dx dy a b))

/-- The operands a receiver recovers from a frame (R103). -/
structure MouseOperands where
  dx : I8
  dy : I8
  a : Bool
  b : Bool
  deriving DecidableEq, Repr

/-- The receiver's reading of a frame (R103). -/
def readMouseFrame (m : Vector Byte mpLen) : MouseOperands where
  dx := ((m[0] &&& 0x03#8) <<< 6) ||| m[1]
  dy := ((m[0] &&& 0x0C#8) <<< 4) ||| m[2]
  a := m[0].getLsbD 5
  b := m[0].getLsbD 4

/-- A byte triple framed as R102 says: bit 7 clear throughout, bit 6 set in the first byte only. -/
def validFrame (m : Vector Byte mpLen) : Bool :=
  m[0].extractLsb' 6 2 == 0b01#2 && m[1].extractLsb' 6 2 == 0b00#2 && m[2].extractLsb' 6 2 == 0b00#2

end Sys2Proof.Machine
end

