-- ==== Sys2Proof/Machine/Dispatch.lean ====
section
/-! DEFINITION. The one dispatch from an instruction to its meaning. -/

namespace Sys2Proof.Machine

def exec (i : Instr) (s : State) : Host.Outcome State Fault Refusal :=
  match i with
  | .kinUpdate sx sy tickMs => Sys2Proof.Machine.execKinUpdate sx sy tickMs s
  | .mouseEncode dx dy a b => Sys2Proof.Machine.execMouseEncode dx dy a b s
  | .keyEncode tiltX a b => Sys2Proof.Machine.execKeyEncode tiltX a b s

end Sys2Proof.Machine
end

