-- ==== Sys2Proof/Machine/Accept.lean ====
section
/-! DEFINITION. The acceptance of a command word (spec 10_state.md R24, 30_encoding.md R51, R52), and runs of accepted
commands: the block's behaviour is a function from the configuration and the accepted words to the state (R24). -/

namespace Sys2Proof.Machine

/-- An accepted word is decoded first; a legal one runs, an illegal one is refused by name (00_scope.md R9(c),
60_exceptions.md R134(d); log 4). -/
def acceptCommand (w : CmdWord) (s : State) : Host.Outcome State Fault Refusal :=
  match decode w with
  | .instr i => exec i s
  | .illegal why => .refused (.illegalWord why)

/-- A list of commands run one after the other, each seeing the complete effect of all earlier ones
(20_memory.md R39), up to the first that gives no next state. -/
def execAll : List Instr → State → Host.Outcome State Fault Refusal
  | [], s => .next s
  | i :: rest, s =>
    match exec i s with
    | .next t => execAll rest t
    | .fault r => .fault r
    | .refused r => .refused r

end Sys2Proof.Machine
end

