-- ==== Sys2Proof/Machine/Step.lean ====
section
/-! DEFINITION. One step of the machine (spec 00_scope.md R8, R9): the complete taking of the host's next move. -/

namespace Sys2Proof.Machine

/-- One step: the next accepted command runs to completion, or the reset event happens; with no move pending the
block is idle and holds its registers (60_exceptions.md R144; log 3). -/
def step (s : State) : Host.Outcome State Fault Refusal :=
  match s.inputs with
  | [] => .next s
  | .command w :: rest => acceptCommand w (s.withInputs rest)
  | .reset :: rest => .next (s.withInputs rest).resetRegs

/-- The state in which the host presents the word `w` (its low `nbits` bits, every bit above them zero) before
every other move, so that the next step accepts exactly it (log 2). -/
def State.withFetchWord (s : State) (nbits w : Nat) : State :=
  s.withInputs (.command (BitVec.ofNat 64 (w % 2 ^ nbits)) :: s.inputs)

end Sys2Proof.Machine
end

