-- ==== Sys2Proof/Machine/Ports.lean ====
section
/-! DEFINITION. The output ports (spec 10_state.md R23, R25; 20_memory.md R35): functions of the registers. No port shows
`PAX`, `PAY`, `VX`, `VY` or a latch. -/

namespace Sys2Proof.Machine

/-- The output ports that show registers (R23); `cmd_ready` is `Block.cmdReady`. -/
structure Ports where
  /-- `DX`. -/
  dx : I8
  /-- `DY`. -/
  dy : I8
  /-- MP[2], MP[1], MP[0] concatenated. -/
  mp : BitVec 24
  /-- KP[10], ..., KP[0] concatenated. -/
  kp : BitVec 88
  deriving DecidableEq, Repr

/-- Bytes concatenated with the first one in the least significant place: byte i at bits 8i+7 : 8i
(20_memory.md R35). -/
def packBytes (n : Nat) : List Byte → BitVec n
  | [] => 0#n
  | byte :: rest => byte.setWidth n ||| (packBytes n rest <<< 8)

/-- What the ports show (R25): the output registers, continuously and without any effect. -/
def Regs.ports (r : Regs) : Ports where
  dx := r.dx
  dy := r.dy
  mp := packBytes 24 r.mp.toList
  kp := packBytes 88 r.kp.toList

/-- What the host reads from the ports (00_scope.md R8): the state is not changed. -/
def State.ports (s : State) : Ports := s.toRegs.ports

end Sys2Proof.Machine
end

