-- ==== Sys2Proof/Machine/Assembler.lean ====
section
/-! DEFINITION. The assembler (spec 30_encoding.md R54): one line of text to one host move. Text is a list of
characters. Lexical details that R54 does not fix are in log 12. -/

namespace Sys2Proof.Machine

/-- White space between the parts of a line (log 12). -/
def isBlank (c : Char) : Bool := c == ' ' || c == '\t' || c == '\r'

/-- A line without its comment: `;` starts one (R54). -/
def dropComment (text : List Char) : List Char := text.takeWhile (· != ';')

/-- A text without the white space at its two ends. -/
def trimBlanks (text : List Char) : List Char :=
  ((text.dropWhile isBlank).reverse.dropWhile isBlank).reverse

/-- A text cut at its commas. -/
def splitCommas : List Char → List (List Char)
  | [] => [[]]
  | c :: cs =>
    if c = ',' then [] :: splitCommas cs
    else match splitCommas cs with
      | [] => [[c]]
      | part :: parts => (c :: part) :: parts

/-- The value of a digit, in decimal or hexadecimal. -/
def digitValue (c : Char) : Option Nat :=
  if 48 ≤ c.toNat ∧ c.toNat ≤ 57 then some (c.toNat - 48)
  else if 65 ≤ c.toNat ∧ c.toNat ≤ 70 then some (c.toNat - 55)
  else if 97 ≤ c.toNat ∧ c.toNat ≤ 102 then some (c.toNat - 87)
  else none

/-- The number that digits of a base continue, after `value`. -/
def readDigits (base value : Nat) : List Char → Option Nat
  | [] => some value
  | c :: cs =>
    match digitValue c with
    | some d => if d < base then readDigits base (base * value + d) cs else none
    | none => none

/-- A number of at least one digit. -/
def readNumber (base : Nat) (text : List Char) : Option Nat :=
  if text.isEmpty then none else readDigits base 0 text

/-- An integer: decimal with an optional minus sign, or hexadecimal with `0x` (R54). -/
def readInt : List Char → Option Int
  | '-' :: ds => (readNumber 10 ds).map fun n => -(n : Int)
  | '0' :: 'x' :: ds => (readNumber 16 ds).map fun n => (n : Int)
  | ds => (readNumber 10 ds).map fun n => (n : Int)

/-- A Boolean: `0` or `1` (R54). -/
def readBool : List Char → Option Bool
  | ['0'] => some false
  | ['1'] => some true
  | _ => none

/-- A displacement operand: an integer, or the name of a port (R54). -/
def readDisplacement : List Char → Option AsmOperand
  | ['D', 'X'] => some .portDX
  | ['D', 'Y'] => some .portDY
  | text => (readInt text).map .int

/-- A line from its mnemonic and its operand texts, in the order of R54. -/
def readLine (mnemonic : List Char) (operands : List (List Char)) : Option AsmLine :=
  if mnemonic = ['K', 'I', 'N', '.', 'U', 'P', 'D', 'A', 'T', 'E'] then
    match operands with
    | [sx, sy, t] => do some (.kinUpdate (← readInt sx) (← readInt sy) (← readInt t))
    | _ => none
  else if mnemonic = ['M', 'O', 'U', 'S', 'E', '.', 'E', 'N', 'C', 'O', 'D', 'E'] then
    match operands with
    | [dx, dy, a, b] => do
        some (.mouseEncode (← readDisplacement dx) (← readDisplacement dy) (← readBool a) (← readBool b))
    | _ => none
  else if mnemonic = ['K', 'E', 'Y', '.', 'E', 'N', 'C', 'O', 'D', 'E'] then
    match operands with
    | [x, a, b] => do some (.keyEncode (← readInt x) (← readBool a) (← readBool b))
    | _ => none
  else if mnemonic = ['R', 'E', 'S', 'E', 'T'] then
    match operands with
    | [[]] => some .reset
    | _ => none
  else none

/-- A displacement operand as an integer, a port standing for the value the host read from it (R54). -/
def AsmOperand.value (ports : Ports) : AsmOperand → Int
  | .int n => n
  | .portDX => sext8 ports.dx
  | .portDY => sext8 ports.dy

/-- The host move of a line, the ports as the host read them before the word is formed (R54); none where an operand
is out of range. -/
def assemble (ports : Ports) (line : AsmLine) : Option HostMove :=
  if line.wf then
    match line with
    | .kinUpdate sx sy t =>
        some (.command (encode (.kinUpdate (BitVec.ofInt 16 sx) (BitVec.ofInt 16 sy) (BitVec.ofInt 16 t))))
    | .mouseEncode dx dy a b =>
        some (.command (encode (.mouseEncode (u8 (AsmOperand.value ports dx)) (u8 (AsmOperand.value ports dy)) a b)))
    | .keyEncode x a b => some (.command (encode (.keyEncode (BitVec.ofInt 16 x) a b)))
    | .reset => some .reset
  else none

/-- One line of text (R54). -/
def assembleText (ports : Ports) (text : List Char) : Assembled :=
  match trimBlanks (dropComment text) with
  | [] => .nothing
  | code =>
    match readLine (code.takeWhile (fun c => !isBlank c))
        ((splitCommas (code.dropWhile (fun c => !isBlank c))).map trimBlanks) with
    | none => .syntaxError
    | some line =>
      match assemble ports line with
      | some m => .move m
      | none => .outOfRange

end Sys2Proof.Machine
end

