-- ==== Sys2Proof/Machine/Clock.lean ====
section
/-! DEFINITION. The clocked interface (spec 10_state.md R23 to R25; 70_reset_and_hazards.md R145 to R148, R158, R159): the
block at rising clock edges, with the handshake, the latency and the reset input. `step` is its command-level view;
nothing functional depends on the latency (R158). -/

namespace Sys2Proof.Machine

/-- The input ports at one rising clock edge (R23). -/
structure Pins where
  rst : Bool
  cmdValid : Bool
  cmd : CmdWord
  deriving DecidableEq, Repr

/-- A command between its acceptance and its completion (R24): the word and the edges left, the completing edge
counted. -/
structure Flight where
  word : CmdWord
  edgesLeft : Nat
  deriving DecidableEq, Repr

/-- The block between two edges. `regs = none`: the registers hold no defined value, because no reset has been seen
since power-on (R146; log 11) or an `FX_OVERFLOW` has happened since (60_exceptions.md R131, R136; log 10). -/
structure Block where
  cfg : Config
  regs : Option Regs
  flight : Option Flight
  deriving DecidableEq, Repr

/-- Power-on: no register has a defined value until the first reset (R146, R148). -/
def Block.powerOn (c : Config) : Block := { cfg := c, regs := none, flight := none }

/-- `cmd_ready` at an edge with the given `rst` (R23, R24, R145; log 9). -/
def Block.cmdReady (b : Block) (rst : Bool) : Bool := !rst && b.flight.isNone

/-- The word accepted at an edge, if one is (R24): `rst = 0`, `cmd_valid = 1` and `cmd_ready = 1`. -/
def Block.accepts (b : Block) (p : Pins) : Option CmdWord :=
  if b.cmdReady p.rst && p.cmdValid then some p.cmd else none

/-- `LAT` of the operation a word selects (R158). -/
def latency (c : Config) (w : CmdWord) : Nat :=
  match decode w with
  | .instr (.kinUpdate _ _ _) => c.latKin
  | .instr (.mouseEncode _ _ _ _) => c.latMouse
  | .instr (.keyEncode _ _ _) => c.latKey
  | .illegal _ => c.latIllegal

/-- The registers a completed word leaves. A legal command writes what its meaning says; an illegal word changes no
register (30_encoding.md R51); after `FX_OVERFLOW`, and under an ill-formed configuration, no value is defined
(60_exceptions.md R131; log 10). -/
def completeWord (c : Config) (w : CmdWord) (regs : Option Regs) : Option Regs :=
  match regs, decode w with
  | none, _ => none
  | some r, .illegal _ => some r
  | some r, .instr i =>
    match exec i { toRegs := r, cfg := c, inputs := [] } with
    | .next t => some t.toRegs
    | .fault _ => none
    | .refused _ => none

/-- One rising clock edge. Reset wins over everything and abandons a command in flight whole (R145, R147,
60_exceptions.md R134(b)); a command in flight completes at its last edge, all its writes at once (R24, 20_memory.md
R37); an idle block accepts an offered word (R24). -/
def Block.edge (b : Block) (p : Pins) : Block :=
  if p.rst then { b with regs := some Regs.zero, flight := none }
  else
    match b.flight with
    | some f =>
      if f.edgesLeft ≤ 1 then { b with regs := completeWord b.cfg f.word b.regs, flight := none }
      else { b with flight := some { f with edgesLeft := f.edgesLeft - 1 } }
    | none =>
      match b.accepts p with
      | some w => { b with flight := some { word := w, edgesLeft := latency b.cfg w } }
      | none => b

/-- The block after a list of edges. -/
def Block.run : List Pins → Block → Block
  | [], b => b
  | p :: rest, b => Block.run rest (b.edge p)

/-- The words accepted over a list of edges and not abandoned by a reset, oldest first, after the words `done`
accepted before (R24, R147). -/
def Block.acceptedSinceReset (done : List CmdWord) : List Pins → Block → List CmdWord
  | [], _ => done
  | p :: rest, b =>
    Block.acceptedSinceReset (if p.rst then [] else done ++ (b.accepts p).toList) rest (b.edge p)

/-- The registers after a list of completed words (R24): commands execute one at a time in acceptance order. -/
def completeWords (c : Config) : List CmdWord → Option Regs → Option Regs
  | [], regs => regs
  | w :: rest, regs => completeWords c rest (completeWord c w regs)

/-- What the ports show between two edges (R25); nothing is defined where no register value is. -/
def Block.ports (b : Block) : Option Ports := b.regs.map Regs.ports

end Sys2Proof.Machine
end

