-- ==== Sys2Proof/Safety.lean ====
section
/-! DEFINITION. The terms the claims are stated in: what a state reached from reset looks like (10_state.md R27), the
kinematics in exact integers with the condition under which no primitive overflows (41_kinematics.md R85,
40_fixed_point.md R73), and the observations of a run of commands (43_keyboard_encoder.md R121, 41_kinematics.md R91) or of clock edges (10_state.md
R24). -/

namespace Sys2Proof.Machine

/-- An integer-valued FX value, the integer between two bounds (10_state.md R11). -/
def fxIntegerIn (lo hi : Int) (a : FX) : Prop := ∃ n : Int, lo ≤ n ∧ n ≤ hi ∧ a = fxInt n

/-- What holds in every state reached from reset (10_state.md R27, (a) to (e)). -/
structure Inv (s : Regs) : Prop where
  /-- (a) `PAX` is an integer in the sample range (R11). -/
  pax_integer : fxIntegerIn (-32768) 32767 s.pax
  /-- (a) `PAY` likewise, 32768 included because of `Y_SIGN` (R11). -/
  pay_integer : fxIntegerIn (-32768) 32768 s.pay
  /-- (b) The two tilt latches exclude each other. -/
  tilt_exclusive : ¬ (s.el = true ∧ s.er = true)
  /-- (c) `DX` is in -127..127. -/
  dx_clamped : -127 ≤ s.dx.toInt ∧ s.dx.toInt ≤ 127
  /-- (c) `DY` is in -127..127. -/
  dy_clamped : -127 ≤ s.dy.toInt ∧ s.dy.toInt ≤ 127
  /-- (d) `MP` is all zero or a valid frame. -/
  mp_framed : s.mp = #v[0#8, 0#8, 0#8] ∨ validFrame s.mp = true
  /-- (e) The spare byte of the key packet is zero. -/
  kp_spare_zero : s.kp[10] = 0#8

/-- The values one lane computes (R85), as exact integer raws. -/
structure LaneTrace where
  a : Int
  dv : Int
  v1 : Int
  d1 : Int
  dvdt : Int
  d2 : Int
  dist : Int
  o1 : Int
  o2 : Int
  o3 : Int

/-- The lane of R85 in exact integers, with no range check: raws in, raws out, each narrowing the floor of the exact
quotient (40_fixed_point.md R69, R70). -/
def laneTrace (cfg : Config) (c pa v dt : Int) : LaneTrace :=
  let a := c - pa
  let dv := a * dt / 0x100000000
  let v1 := v + dv
  let d1 := v1 * dt / 0x100000000
  let dvdt := dv * dt / 0x100000000
  let d2 := dvdt / 2
  let dist := d1 + d2
  let o1 := dist * cfg.scalingFactor.toInt / 0x100000000
  let o2 := o1 * 0x100000000 / cfg.maxAccel.toInt
  let o3 := o2 * cfg.maxMovementUnit.toInt / 0x100000000
  { a, dv, v1, d1, dvdt, d2, dist, o1, o2, o3 }

/-- A raw is that of some FX value: -2^63 <= r <= 2^63 - 1 (40_fixed_point.md R66, R73). -/
abbrev fitsFX (r : Int) : Prop := -0x8000000000000000 ≤ r ∧ r ≤ 0x7FFFFFFFFFFFFFFF

/-- No primitive of the lane overflows (R73). -/
structure LaneTrace.Fits (t : LaneTrace) : Prop where
  a : fitsFX t.a
  dv : fitsFX t.dv
  v1 : fitsFX t.v1
  d1 : fitsFX t.d1
  dvdt : fitsFX t.dvdt
  d2 : fitsFX t.d2
  dist : fitsFX t.dist
  o1 : fitsFX t.o1
  o2 : fitsFX t.o2
  o3 : fitsFX t.o3

/-- The integer `fx_floor(o3)` of the lane (R85 step 7). -/
def LaneTrace.output (t : LaneTrace) : Int := t.o3 / 0x100000000

/-- The tick in seconds as a raw: floor(t * 2^32 / 1000) (40_fixed_point.md R77). -/
def tickRaw (tickMs : U16) : Int := tickMs.toNat * 0x100000000 / 1000

/-- `Y_SIGN` as a number (10_state.md R20). -/
def ySignValue : Sign → Int
  | .plus => 1
  | .minus => -1

/-- The x lane of `KIN.UPDATE sx, sy, tickMs` in a state. -/
def traceX (sx : I16) (tickMs : U16) (s : State) : LaneTrace :=
  laneTrace s.cfg (sx.toInt * 0x100000000) s.pax.toInt s.vx.toInt (tickRaw tickMs)

/-- The y lane of `KIN.UPDATE sx, sy, tickMs` in a state: `Y_SIGN` applied to the sample (R89). -/
def traceY (sy : I16) (tickMs : U16) (s : State) : LaneTrace :=
  laneTrace s.cfg (ySignValue s.cfg.ySign * sy.toInt * 0x100000000) s.pay.toInt s.vy.toInt (tickRaw tickMs)

/-- A command that is not a `KIN.UPDATE` with another tick: the constant-tick hypothesis of R91 and R93. -/
def hasTick (tickMs : U16) : Instr → Bool
  | .kinUpdate _ _ t => t == tickMs
  | .mouseEncode _ _ _ _ => true
  | .keyEncode _ _ _ => true

/-- What holds between commands while every `KIN.UPDATE` has the same tick (R91): the previous samples are integers in
their ranges (10_state.md R11), and each velocity is exactly its sample times the tick. -/
structure TickForm (tickMs : U16) (s : Regs) : Prop where
  x_lane : ∃ n : Int, -32768 ≤ n ∧ n ≤ 32767 ∧ s.pax = fxInt n ∧ s.vx.toInt = n * tickRaw tickMs
  y_lane : ∃ n : Int, -32768 ≤ n ∧ n ≤ 32768 ∧ s.pay = fxInt n ∧ s.vy.toInt = n * tickRaw tickMs

/-- The sample operands of the last `KIN.UPDATE` of a list of commands, `before` where there is none. -/
def lastSample (before : I16 × I16) : List Instr → I16 × I16
  | [] => before
  | .kinUpdate sx sy _ :: rest => lastSample (sx, sy) rest
  | .mouseEncode _ _ _ _ :: rest => lastSample before rest
  | .keyEncode _ _ _ :: rest => lastSample before rest

/-- What channel c did in each `KEY.ENCODE` of a run, oldest first, read back from the packet each leaves (R120). -/
def channelEvents (c : Channel) : List Instr → State → List KeyEvent
  | [], _ => []
  | i :: rest, s =>
    match exec i s with
    | .next t =>
      match i with
      | .keyEncode _ _ _ => (c.readEvent t.kp).toList ++ channelEvents c rest t
      | .kinUpdate _ _ _ => channelEvents c rest t
      | .mouseEncode _ _ _ _ => channelEvents c rest t
    | .fault _ => []
    | .refused _ => []

/-- Makes and breaks strictly alternate, a make first unless the key is already held (R121). -/
def alternates (held : Bool) : List KeyEvent → Bool
  | [] => true
  | .nothing :: rest => alternates held rest
  | .make :: rest => !held && alternates true rest
  | .release :: rest => held && alternates false rest

/-- A latch as a number: 1 = active (10_state.md R14). -/
def latchNumber (latch : Bool) : Int := if latch then 1 else 0

/-- What one event adds to the makes less the breaks (R121). -/
def KeyEvent.balance : KeyEvent → Int
  | .nothing => 0
  | .make => 1
  | .release => -1

/-- The pairing of R121 between what channel c has emitted so far and its latch: the makes less the breaks are the latch,
and makes and breaks alternate, a make first. -/
structure Paired (c : Channel) (emitted : List KeyEvent) (s : Regs) : Prop where
  balance : (emitted.count .make : Int) - emitted.count .release = latchNumber (c.latch s)
  alternate : alternates false emitted = true

/-- The condition of channel c in the last `KEY.ENCODE` of a list of commands, `before` where there is none. -/
def lastCondition (c : Channel) (before : Bool) : List Instr → Bool
  | [] => before
  | .keyEncode x a b :: rest => lastCondition c (c.condition x a b) rest
  | .kinUpdate _ _ _ :: rest => lastCondition c before rest
  | .mouseEncode _ _ _ _ :: rest => lastCondition c before rest

/-- A run of commands that is safe: no command faults and none is refused (00_scope.md R9). -/
def SafeRun (is : List Instr) (s : State) : Prop := ∃ t, execAll is s = .next t

/-- The registers of the block are what the words accepted since reset and completed leave from `start`; an accepted word
not among those is the one in flight (10_state.md R24). -/
def Block.HasRun (b : Block) (accepted : List CmdWord) (start : Option Regs) : Prop :=
  ∃ completed, accepted = completed ++ (b.flight.map Flight.word).toList ∧
    b.regs = completeWords b.cfg completed start

/-- A displacement operand of the assembler is in range: an integer in -128..127 (30_encoding.md R49), or a port. -/
def displacementInRange : AsmOperand → Prop
  | .int n => -128 ≤ n ∧ n ≤ 127
  | .portDX => True
  | .portDY => True

/-- The pattern x has the value of a displacement operand: the integer written, or what the host read from the port
(30_encoding.md R54). -/
def displacementDenotes (ports : Ports) (x : I8) : AsmOperand → Prop
  | .int n => x.toInt = n
  | .portDX => x = ports.dx
  | .portDY => x = ports.dy

end Sys2Proof.Machine
end

