-- ==== Sys2Proof/Certificates/Slice0/Obligations.lean ====
section
/-! DEFINITION. The statements for the provers. Each docstring names the rule of spec/ it formalises, or, for a statement of
basis 'derived', the sections and the spec's sentence it rests on. Nothing is proved here. -/

open Sys2Proof Sys2Proof.Machine

/-! ### Encoding (30_encoding.md) -/

/-- The words of 95_test_vectors.md 2.1 (E1 to E14), written out from the spec: seven decode to the command beside them,
seven are illegal. Basis derived: 95_test_vectors.md 2.1. -/
def Obligations.SpecWordsDecode : Prop :=
  decode 0x010003E8FF380064#64 = .instr (.kinUpdate 100#16 (BitVec.ofInt 16 (-200)) 1000#16) ∧
  decode 0x0100FFFF80007FFF#64 = .instr (.kinUpdate 32767#16 (BitVec.ofInt 16 (-32768)) 65535#16) ∧
  decode 0x0100000000000000#64 = .instr (.kinUpdate 0#16 0#16 0#16) ∧
  decode 0x0201000000FD0005#64 = .instr (.mouseEncode 5#8 (BitVec.ofInt 8 (-3)) true false) ∧
  decode 0x02030000007F0080#64 = .instr (.mouseEncode (BitVec.ofInt 8 (-128)) 127#8 true true) ∧
  decode 0x030000000000FE0C#64 = .instr (.keyEncode (BitVec.ofInt 16 (-500)) false false) ∧
  decode 0x030300000000012D#64 = .instr (.keyEncode 301#16 true true) ∧
  decode 0x0000000000000000#64 = .illegal (.unknownOp 0x00#8) ∧
  decode 0x0400000000000000#64 = .illegal (.unknownOp 0x04#8) ∧
  decode 0x0101000000000000#64 = .illegal (.mustBeZero 0x01#8) ∧
  decode 0x0200000000FDFFFB#64 = .illegal (.mustBeZero 0x02#8) ∧
  decode 0x0304000000000000#64 = .illegal (.mustBeZero 0x03#8) ∧
  decode 0x0300000000010000#64 = .illegal (.mustBeZero 0x03#8) ∧
  decode 0xFF00000000000000#64 = .illegal (.unknownOp 0xFF#8)

/-- Decoding and encoding are inverse to each other: every instruction, with every operand at every value its field
admits, decodes from its own word, and every legal word is the word of the instruction it decodes to. Basis derived:
30_encoding.md section 5, "For every legal constructor c, decode(encode(c)) = c; for every word w with decode(w) legal,
encode(decode(w)) = w". -/
def Obligations.DecodeEncodeAgree : Prop :=
  (∀ i : Instr, decode (encode i) = .instr i) ∧
  (∀ (w : CmdWord) (i : Instr), decode w = .instr i → encode i = w)

/-- R46, format K: a word is `KIN.UPDATE sx, sy, tick_ms` exactly when bits 63:56 are 0x01, bits 55:48 are zero, and
bits 47:32, 31:16 and 15:0 are `tick_ms`, `sy` and `sx`. -/
def Obligations.FormatKFields : Prop :=
  ∀ (w : CmdWord) (sx sy : I16) (tickMs : U16),
    decode w = .instr (.kinUpdate sx sy tickMs) ↔
      w.extractLsb' 56 8 = 0x01#8 ∧ w.extractLsb' 48 8 = 0#8 ∧ w.extractLsb' 32 16 = tickMs ∧
      w.extractLsb' 16 16 = sy ∧ w.extractLsb' 0 16 = sx

/-- R47, format M: a word is `MOUSE.ENCODE dx, dy, a, b` exactly when bits 63:56 are 0x02, bits 55:50, 47:32, 31:24 and
15:8 are zero, bits 49 and 48 are `b` and `a`, and bits 23:16 and 7:0 are `dy` and `dx`. -/
def Obligations.FormatMFields : Prop :=
  ∀ (w : CmdWord) (dx dy : I8) (a b : Bool),
    decode w = .instr (.mouseEncode dx dy a b) ↔
      w.extractLsb' 56 8 = 0x02#8 ∧ w.extractLsb' 50 6 = 0#6 ∧ w.getLsbD 49 = b ∧ w.getLsbD 48 = a ∧
      w.extractLsb' 32 16 = 0#16 ∧ w.extractLsb' 24 8 = 0#8 ∧ w.extractLsb' 16 8 = dy ∧
      w.extractLsb' 8 8 = 0#8 ∧ w.extractLsb' 0 8 = dx

/-- R48, format E: a word is `KEY.ENCODE tilt_x, a, b` exactly when bits 63:56 are 0x03, bits 55:50 and 47:16 are zero,
bits 49 and 48 are `b` and `a`, and bits 15:0 are `tilt_x`. -/
def Obligations.FormatEFields : Prop :=
  ∀ (w : CmdWord) (tiltX : I16) (a b : Bool),
    decode w = .instr (.keyEncode tiltX a b) ↔
      w.extractLsb' 56 8 = 0x03#8 ∧ w.extractLsb' 50 6 = 0#6 ∧ w.getLsbD 49 = b ∧ w.getLsbD 48 = a ∧
      w.extractLsb' 16 32 = 0#32 ∧ w.extractLsb' 0 16 = tiltX

/-- R50, the opcode map: a word selects the operation of a row exactly when masking gives the row's match, no word
matches two rows, and there is no other operation (a word that matches no row decodes to none). -/
def Obligations.OpcodeMapIsExact : Prop :=
  ∀ w : CmdWord,
    ((∃ sx sy t, decode w = .instr (.kinUpdate sx sy t)) ↔ w &&& 0xFFFF000000000000#64 = 0x0100000000000000#64) ∧
    ((∃ dx dy a b, decode w = .instr (.mouseEncode dx dy a b)) ↔
      w &&& 0xFFFCFFFFFF00FF00#64 = 0x0200000000000000#64) ∧
    ((∃ x a b, decode w = .instr (.keyEncode x a b)) ↔ w &&& 0xFFFCFFFFFFFF0000#64 = 0x0300000000000000#64) ∧
    ¬ (w &&& 0xFFFF000000000000#64 = 0x0100000000000000#64 ∧ w &&& 0xFFFCFFFFFF00FF00#64 = 0x0200000000000000#64) ∧
    ¬ (w &&& 0xFFFF000000000000#64 = 0x0100000000000000#64 ∧ w &&& 0xFFFCFFFFFFFF0000#64 = 0x0300000000000000#64) ∧
    ¬ (w &&& 0xFFFCFFFFFF00FF00#64 = 0x0200000000000000#64 ∧ w &&& 0xFFFCFFFFFFFF0000#64 = 0x0300000000000000#64)

/-- The illegal words are those whose `OP` is no operation's or that set a must-be-zero bit of their format (the field
checks of R46 to R48, `CmdWord.wf`); the all-zero word is one. Accepted by the clocked interface, with no reset following,
such a word completes after its latency and changes no register; where the block has no defined register value, that it
accepts the word all the same is the model's choice (logs 10, 11). (`step` refuses it: `StepStopsForNamedReasons`, log 4.)
Basis derived: 30_encoding.md section 5. -/
def Obligations.IllegalWordsChangeNothing : Prop :=
  (∀ w : CmdWord, (∃ why, decode w = .illegal why) ↔ w.wf = false) ∧
  CmdWord.wf 0#64 = false ∧
  (∀ (b : Block) (p : Pins) (ps : List Pins),
    b.cfg.wf = true → b.flight = none → p.rst = false → p.cmdValid = true → p.cmd.wf = false →
    (∀ q ∈ ps, q.rst = false) → ps.length = b.cfg.latIllegal →
    Block.run (p :: ps) b = b)

/-! ### The step (00_scope.md R8, R9; 10_state.md R24, R26) -/

/-- When the host's next move is a word that decodes to an instruction, step is exec of that instruction in the state
with that move taken, and nothing else. Basis derived: 00_scope.md section 6, 10_state.md section 8 (R24's acceptance; the
list of moves is the model's, log 2). -/
def Obligations.StepRunsDecodedCommand : Prop :=
  ∀ (s : State) (w : CmdWord) (rest : List HostMove) (i : Instr),
    s.inputs = .command w :: rest → decode w = .instr i →
    step s = exec i { s with inputs := rest }

/-- An instruction presented by its own word runs as the very next step, in any state. Basis derived: 30_encoding.md
section 5 and 10_state.md section 8 (presenting a word is the model's `withFetchWord`, log 2). -/
def Obligations.PresentedInstructionRunsNext : Prop :=
  ∀ (s : State) (i : Instr), step (s.withFetchWord 64 (encode i).toNat) = exec i s

/-- R26: after reset every register is zero and every latch inactive, in the state `State.reset` and after the reset move
in any state; the configuration constants are not reset. -/
def Obligations.ResetZeroesEveryRegister : Prop :=
  (∀ r : Regs, (r = State.reset.toRegs ∨ ∃ (s t : State) (rest : List HostMove),
      s.inputs = .reset :: rest ∧ step s = .next t ∧ r = t.toRegs) →
    r.pax.toInt = 0 ∧ r.pay.toInt = 0 ∧ r.vx.toInt = 0 ∧ r.vy.toInt = 0 ∧ r.dx.toInt = 0 ∧ r.dy.toInt = 0 ∧
    r.ea = false ∧ r.eb = false ∧ r.el = false ∧ r.er = false ∧
    (∀ i : Fin 3, r.mp[i] = 0#8) ∧ (∀ i : Fin 11, r.kp[i] = 0#8)) ∧
  (∀ (s : State) (rest : List HostMove), s.inputs = .reset :: rest →
    ∃ t, step s = .next t ∧ t.cfg = s.cfg ∧ t.inputs = rest)

/-- With no host move pending the block is idle: the step changes nothing. The model's choice of what `step` does there
(log 3), from 60_exceptions.md section 6: "Between commands the block is idle with all registers holding their values". -/
def Obligations.IdleStepHoldsEverything : Prop :=
  ∀ s : State, s.inputs = [] → step s = .next s

/-- The stops of a step and their reasons: a fault is `FX_OVERFLOW`, from a `KIN.UPDATE` some value of which does not fit;
a refusal is an illegal word, or a `KIN.UPDATE` under a configuration whose `MAX_ACCEL` is not positive; nothing else stops.
And each of them does stop: every illegal word is refused, with its reason, and so is every `KIN.UPDATE` under such a
configuration, and every `KIN.UPDATE` some value of which does not fit faults. Basis derived: 60_exceptions.md section 1,
93_implementation_defined.md items 1, 2 and 4 (refusing is what the spec asks of a model; logs 4, 5, 6). -/
def Obligations.StepStopsForNamedReasons : Prop :=
  (∀ (s : State) (f : Fault), step s = .fault f →
    f = .fxOverflow ∧ ∃ w rest sx sy tickMs, s.inputs = .command w :: rest ∧
      decode w = .instr (.kinUpdate sx sy tickMs) ∧ 0 < s.cfg.maxAccel.toInt ∧
      ¬ ((traceX sx tickMs s).Fits ∧ (traceY sy tickMs s).Fits)) ∧
  (∀ (s : State) (r : Refusal), step s = .refused r →
    (∃ w rest why, s.inputs = .command w :: rest ∧ w.wf = false ∧ decode w = .illegal why ∧ r = .illegalWord why) ∨
    (∃ w rest sx sy tickMs, s.inputs = .command w :: rest ∧ decode w = .instr (.kinUpdate sx sy tickMs) ∧
      s.cfg.maxAccel.toInt ≤ 0 ∧ r = .illFormedConfig)) ∧
  (∀ (s : State) (w : CmdWord) (rest : List HostMove), s.inputs = .command w :: rest →
    (w.wf = false → step s = .refused (.illegalWord (whyIllegal w))) ∧
    (∀ sx sy tickMs, decode w = .instr (.kinUpdate sx sy tickMs) →
      (s.cfg.maxAccel.toInt ≤ 0 → step s = .refused .illFormedConfig) ∧
      (0 < s.cfg.maxAccel.toInt → ¬ ((traceX sx tickMs s).Fits ∧ (traceY sy tickMs s).Fits) →
        step s = .fault .fxOverflow)))

/-! ### Whole-machine rules (10_state.md) -/

/-- Which command reads and writes which register. A command that answers a next state leaves every register outside
its row as it was, the configuration too; and what it writes depends on the operands, the configuration and the registers
it reads only (`MOUSE.ENCODE` reads none). Basis derived: 10_state.md section 7, "A command reads and writes only the
registers of its row". -/
def Obligations.CommandsReadAndWriteTheirRow : Prop :=
  (∀ (sx sy : I16) (k : U16) (s t : State), exec (.kinUpdate sx sy k) s = .next t →
    t = { s with pax := t.pax, pay := t.pay, vx := t.vx, vy := t.vy, dx := t.dx, dy := t.dy }) ∧
  (∀ (dx dy : I8) (a b : Bool) (s t : State), exec (.mouseEncode dx dy a b) s = .next t → t = { s with mp := t.mp }) ∧
  (∀ (x : I16) (a b : Bool) (s t : State), exec (.keyEncode x a b) s = .next t →
    t = { s with ea := t.ea, eb := t.eb, el := t.el, er := t.er, kp := t.kp }) ∧
  (∀ (sx sy : I16) (k : U16) (s s' t : State), s'.cfg = s.cfg → s'.pax = s.pax → s'.pay = s.pay →
    s'.vx = s.vx → s'.vy = s.vy → exec (.kinUpdate sx sy k) s = .next t →
    exec (.kinUpdate sx sy k) s' =
      .next { s' with pax := t.pax, pay := t.pay, vx := t.vx, vy := t.vy, dx := t.dx, dy := t.dy }) ∧
  (∀ (dx dy : I8) (a b : Bool) (s s' t : State), exec (.mouseEncode dx dy a b) s = .next t →
    exec (.mouseEncode dx dy a b) s' = .next { s' with mp := t.mp }) ∧
  (∀ (x : I16) (a b : Bool) (s s' t : State), s'.ea = s.ea → s'.eb = s.eb → s'.el = s.el → s'.er = s.er →
    exec (.keyEncode x a b) s = .next t →
    exec (.keyEncode x a b) s' = .next { s' with ea := t.ea, eb := t.eb, el := t.el, er := t.er, kp := t.kp })

/-- The configuration constants are the same after every step, whatever the command, reset included, and after every
clock edge. Basis derived: 10_state.md section 6, "None is readable or writable by a command", and section 9, "The
configuration constants are not reset". -/
def Obligations.ConfigurationNeverChanges : Prop :=
  (∀ s t : State, step s = .next t → t.cfg = s.cfg) ∧
  (∀ (ps : List Pins) (b : Block), (Block.run ps b).cfg = b.cfg)

/-- The invariant of 10_state.md section 10 (the structure `Inv`: integer samples in range, tilt latches exclusive,
clamped displacements, a framed or all-zero mouse packet, a zero spare byte) is kept by every step from every state that
has it. Basis derived: 10_state.md section 10. -/
def Obligations.EveryStepKeepsTheReachableForm : Prop :=
  ∀ s t : State, Inv s.toRegs → step s = .next t → Inv t.toRegs

/-- The state after reset has that invariant, the constant-tick form for every tick, and the pairing with nothing emitted,
for every channel. Basis derived: 10_state.md section 10, 41_kinematics.md section 3, 43_keyboard_encoder.md section 3. -/
def Obligations.ResetHasTheReachableForm : Prop :=
  Inv State.reset.toRegs ∧ (∀ k : U16, TickForm k State.reset.toRegs) ∧ (∀ c : Channel, Paired c [] State.reset.toRegs)

/-- Commands of different units do not affect each other: in either order they give the same outcome, state for state,
fault for fault. Basis derived: 20_memory.md section 7, "commands of different units do not affect each other's state at
all". -/
def Obligations.UnitsCommute : Prop :=
  ∀ (i j : Instr) (s : State), i.opcode ≠ j.opcode → execAll [i, j] s = execAll [j, i] s

/-- The output ports show the output registers: `dx`, `dy` are `DX`, `DY`, and byte i of a buffer is bits 8i+7..8i of its
port. Basis derived: 20_memory.md section 4, "byte KP[i] occupies bits 8i+7 : 8i". -/
def Obligations.PortsShowTheRegisters : Prop :=
  ∀ r : Regs, r.ports.dx = r.dx ∧ r.ports.dy = r.dy ∧
    (∀ i : Fin 3, r.ports.mp.extractLsb' (8 * i.val) 8 = r.mp[i]) ∧
    (∀ i : Fin 11, r.ports.kp.extractLsb' (8 * i.val) 8 = r.kp[i])

/-! ### Fixed-point arithmetic (40_fixed_point.md) -/

/-- R69, `fx_mul`: the raw is floor(a.raw * b.raw / 2^32), stated as the two inequalities of the rule, overflow exactly
when that raw does not fit, and the operation is commutative. -/
def Obligations.MultiplyRoundsDown : Prop :=
  ∀ (rnd : Rounding) (a b : FX),
    (∀ x, fxMul rnd a b = some x →
      x.toInt = ⌊(a.toInt * b.toInt : ℚ) / 2 ^ 32⌋ ∧
      x.toInt * 2 ^ 32 ≤ a.toInt * b.toInt ∧ a.toInt * b.toInt < (x.toInt + 1) * 2 ^ 32) ∧
    (fxMul rnd a b = none ↔ ¬ fitsFX ⌊(a.toInt * b.toInt : ℚ) / 2 ^ 32⌋) ∧
    fxMul rnd a b = fxMul rnd b a

/-- R70, `fx_div` by a positive divisor: the raw is floor(a.raw * 2^32 / b.raw), overflow exactly when it does not fit;
the three divisors of the hardware are positive, `MAX_ACCEL` by the well-formedness of the configuration. -/
def Obligations.DivideRoundsDown : Prop :=
  (∀ (rnd : Rounding) (a b : FX), 0 < b.toInt →
    (∀ x, fxDiv rnd a b = some x → x.toInt = ⌊(a.toInt * 2 ^ 32 : ℚ) / b.toInt⌋) ∧
    (fxDiv rnd a b = none ↔ ¬ fitsFX ⌊(a.toInt * 2 ^ 32 : ℚ) / b.toInt⌋)) ∧
  0 < (fxInt 1000).toInt ∧ 0 < (fxInt 2).toInt ∧ (∀ c : Config, c.wf = true → 0 < c.maxAccel.toInt)

/-- R71, `fx_floor`: the upper 32 bits of the raw read as a signed integer, which is the floor of the value, between -2^31
and 2^31 - 1; of -0.5 it is -1, and of the raws next to -37.2 and +37.2 it is -38 and 37. -/
def Obligations.FloorIsTheUpperHalf : Prop :=
  (∀ (rnd : Rounding) (a : FX),
    fxFloor rnd a = (a.extractLsb' 32 32).toInt ∧ fxFloor rnd a = ⌊(a.toInt : ℚ) / 2 ^ 32⌋ ∧
    -2 ^ 31 ≤ fxFloor rnd a ∧ fxFloor rnd a ≤ 2 ^ 31 - 1) ∧
  (∀ rnd : Rounding, fxFloor rnd (0xFFFFFFFF80000000#64) = -1 ∧ fxFloor rnd 0xFFFFFFDACCCCCCCC#64 = -38 ∧
    fxFloor rnd 0x0000002533333333#64 = 37)

/-- R72, `clamp127`: -127 below the range, 127 above it, the integer itself inside; never -128, and held exactly by an
`i8`. -/
def Obligations.ClampSaturates : Prop :=
  ∀ n : Int, (n < -127 → clamp127 n = -127) ∧ (n > 127 → clamp127 n = 127) ∧
    (-127 ≤ n → n ≤ 127 → clamp127 n = n) ∧ -127 ≤ clamp127 n ∧ clamp127 n ≤ 127 ∧
    (u8 (clamp127 n)).toInt = clamp127 n

/-- An integer times an FX value is exact: for n in -2^31..2^31-1, `fx_mul(fx_int(n), b)` has raw n * b.raw whenever that
raw fits, and overflows otherwise. Basis derived: 40_fixed_point.md section 5. -/
def Obligations.IntegerTimesFixedIsExact : Prop :=
  ∀ (rnd : Rounding) (n : Int) (b : FX), -2 ^ 31 ≤ n → n ≤ 2 ^ 31 - 1 →
    (fitsFX (n * b.toInt) → ∃ x, fxMul rnd (fxInt n) b = some x ∧ x.toInt = n * b.toInt) ∧
    (¬ fitsFX (n * b.toInt) → fxMul rnd (fxInt n) b = none)

/-- Division by 2 never overflows and is the arithmetic shift right by one. Basis derived: 40_fixed_point.md section 5. -/
def Obligations.HalvingIsArithmeticShift : Prop :=
  ∀ (rnd : Rounding) (a : FX), fxDiv rnd a (fxInt 2) = some (a.sshiftRight 1)

/-- The tick conversion answers for every tick, with raw floor(t * 2^32 / 1000), exact exactly when 125 divides t, never
negative and below 65.536. Basis derived: 40_fixed_point.md section 5. -/
def Obligations.TickConversion : Prop :=
  ∀ (rnd : Rounding) (t : U16), ∃ x, tickSeconds rnd t = some x ∧
    x.toInt = ⌊(t.toNat * 2 ^ 32 : ℚ) / 1000⌋ ∧
    (x.toInt * 1000 = t.toNat * 2 ^ 32 ↔ 125 ∣ t.toNat) ∧
    0 ≤ x.toInt ∧ 1000 * x.toInt < 65536 * 2 ^ 32

/-- `fx_mul` by a value that is not negative, `fx_div`, `fx_floor` and `clamp127` are each non-decreasing. Basis derived:
40_fixed_point.md section 5. -/
def Obligations.PrimitivesAreMonotone : Prop :=
  (∀ (rnd : Rounding) (a a' b x x' : FX), a.toInt ≤ a'.toInt →
    (0 ≤ b.toInt → fxMul rnd a b = some x → fxMul rnd a' b = some x' → x.toInt ≤ x'.toInt) ∧
    (fxDiv rnd a b = some x → fxDiv rnd a' b = some x' → x.toInt ≤ x'.toInt) ∧
    fxFloor rnd a ≤ fxFloor rnd a') ∧
  (∀ m n : Int, m ≤ n → clamp127 m ≤ clamp127 n)

/-! ### KIN.UPDATE (41_kinematics.md) -/

/-- What `KIN.UPDATE` does: under a configuration with `MAX_ACCEL.raw > 0`, in every state and for every operand, `KIN.UPDATE` completes
exactly when no value of either lane overflows, and then writes the samples (`Y_SIGN` applied to y), the updated
velocities and the floored and clamped outputs of the lanes, computed step by step in exact integers with the floor at each
narrowing (`laneTrace`), and changes nothing else; when some value overflows, in whichever lane, the outcome is the fault
`FX_OVERFLOW`. Basis derived: 41_kinematics.md section 1, 40_fixed_point.md sections 2 and 3. -/
def Obligations.KinUpdateIsTheLaneComputation : Prop :=
  ∀ (sx sy : I16) (tickMs : U16) (s : State), 0 < s.cfg.maxAccel.toInt →
    ((traceX sx tickMs s).Fits → (traceY sy tickMs s).Fits →
      exec (.kinUpdate sx sy tickMs) s = .next { s with
        pax := BitVec.ofInt 64 (sx.toInt * 2 ^ 32)
        pay := BitVec.ofInt 64 (ySignValue s.cfg.ySign * sy.toInt * 2 ^ 32)
        vx := BitVec.ofInt 64 (traceX sx tickMs s).v1
        vy := BitVec.ofInt 64 (traceY sy tickMs s).v1
        dx := BitVec.ofInt 8 (max (-127) (min 127 (traceX sx tickMs s).output))
        dy := BitVec.ofInt 8 (max (-127) (min 127 (traceY sy tickMs s).output)) }) ∧
    (¬ ((traceX sx tickMs s).Fits ∧ (traceY sy tickMs s).Fits) →
      exec (.kinUpdate sx sy tickMs) s = .fault .fxOverflow)

/-- Under a configuration with `MAX_ACCEL.raw <= 0`, for which the spec does not define it, `KIN.UPDATE` is refused by
name. Basis derived: 93_implementation_defined.md item 4 (log 6). -/
def Obligations.KinUpdateRefusesIllFormedConfig : Prop :=
  ∀ (sx sy : I16) (tickMs : U16) (s : State), s.cfg.maxAccel.toInt ≤ 0 →
    exec (.kinUpdate sx sy tickMs) s = .refused .illFormedConfig

/-- R86, lanes: what one lane writes depends on its own operand and registers, the tick and the constants only; a fault in
either lane faults the whole command; and the lanes are one computation: the y lane writes what the x lane would write on
the sample with `Y_SIGN` applied. -/
def Obligations.LanesAreIndependent : Prop :=
  (∀ (sx sy sy' : I16) (k : U16) (s s' t t' : State), s'.cfg = s.cfg → s'.pax = s.pax → s'.vx = s.vx →
    exec (.kinUpdate sx sy k) s = .next t → exec (.kinUpdate sx sy' k) s' = .next t' →
    t'.pax = t.pax ∧ t'.vx = t.vx ∧ t'.dx = t.dx) ∧
  (∀ (sx sx' sy : I16) (k : U16) (s s' t t' : State), s'.cfg = s.cfg → s'.pay = s.pay → s'.vy = s.vy →
    exec (.kinUpdate sx sy k) s = .next t → exec (.kinUpdate sx' sy k) s' = .next t' →
    t'.pay = t.pay ∧ t'.vy = t.vy ∧ t'.dy = t.dy) ∧
  (∀ (sx sy : I16) (k : U16) (s : State), 0 < s.cfg.maxAccel.toInt →
    (¬ (traceX sx k s).Fits ∨ ¬ (traceY sy k s).Fits ↔ exec (.kinUpdate sx sy k) s = .fault .fxOverflow)) ∧
  (∀ (sx sy sx' sy' : I16) (k : U16) (s s' t t' : State), s'.cfg = s.cfg → s'.pax = s.pay → s'.vx = s.vy →
    sx'.toInt = ySignValue s.cfg.ySign * sy.toInt →
    exec (.kinUpdate sx sy k) s = .next t → exec (.kinUpdate sx' sy' k) s' = .next t' →
    t'.pax = t.pay ∧ t'.vx = t.vy ∧ t'.dx = t.dy)

/-- Saturation: after a `KIN.UPDATE` that completes, each displacement is in -127..127, and is +127 (or -127) exactly when
the integer output of its lane is at least 127 (at most -127); the velocity is the unclamped one. Basis derived:
41_kinematics.md section 3. -/
def Obligations.DisplacementsSaturate : Prop :=
  ∀ (sx sy : I16) (k : U16) (s t : State), exec (.kinUpdate sx sy k) s = .next t →
    -127 ≤ t.dx.toInt ∧ t.dx.toInt ≤ 127 ∧ -127 ≤ t.dy.toInt ∧ t.dy.toInt ≤ 127 ∧
    (t.dx.toInt = 127 ↔ 127 ≤ (traceX sx k s).output) ∧ (t.dx.toInt = -127 ↔ (traceX sx k s).output ≤ -127) ∧
    (t.dy.toInt = 127 ↔ 127 ≤ (traceY sy k s).output) ∧ (t.dy.toInt = -127 ↔ (traceY sy k s).output ≤ -127) ∧
    t.vx.toInt = (traceX sx k s).v1 ∧ t.vy.toInt = (traceY sy k s).v1

/-- Tick 0, in every state of the reachable form: `KIN.UPDATE` completes, the displacement is zero, the velocity is as it
was, and the sample is stored. Basis derived: 41_kinematics.md section 4, case (b). -/
def Obligations.ZeroTickStoresTheSampleOnly : Prop :=
  ∀ (sx sy : I16) (s : State), 0 < s.cfg.maxAccel.toInt → Inv s.toRegs →
    exec (.kinUpdate sx sy 0#16) s = .next { s with
      pax := fxInt sx.toInt
      pay := fxInt (ySignValue s.cfg.ySign * sy.toInt)
      dx := 0#8
      dy := 0#8 }

/-- Zero input from a state whose KinematicState is zero: any number of `KIN.UPDATE 0, 0, t` with any ticks complete, leave
all of KinematicState zero, and give displacement zero. Basis derived: 41_kinematics.md section 3, case (a) of the law on
zero input. -/
def Obligations.ZeroInputStaysZero : Prop :=
  ∀ (k : U16) (ticks : List U16) (s : State), 0 < s.cfg.maxAccel.toInt →
    s.pax = 0#64 → s.pay = 0#64 → s.vx = 0#64 → s.vy = 0#64 →
    execAll ((k :: ticks).map (.kinUpdate 0#16 0#16)) s = .next { s with dx := 0#8, dy := 0#8 }

/-- Telescoping under a constant tick: after any commands from the all-zero registers, every `KIN.UPDATE` among them with
the same tick, the velocity is the last sample times the tick, exactly, per lane; and a further `KIN.UPDATE` with that tick
gives a displacement that depends on its own and the previous sample only: two such histories with the same last sample
give the same one. Basis derived: 41_kinematics.md section 3, 90_conflicts.md C4. -/
def Obligations.ConstantTickTelescopes : Prop :=
  ∀ (k : U16) (is is' : List Instr) (s t t' : State),
    s.toRegs = Regs.zero → is.all (hasTick k) = true → is'.all (hasTick k) = true →
    execAll is s = .next t → execAll is' s = .next t' →
    (t.vx.toInt = (lastSample (0#16, 0#16) is).1.toInt * tickRaw k ∧
      t.vy.toInt = ySignValue s.cfg.ySign * (lastSample (0#16, 0#16) is).2.toInt * tickRaw k) ∧
    (lastSample (0#16, 0#16) is' = lastSample (0#16, 0#16) is →
      ∀ (sx sy : I16) (u u' : State), exec (.kinUpdate sx sy k) t = .next u →
        exec (.kinUpdate sx sy k) t' = .next u' → u'.dx = u.dx ∧ u'.dy = u.dy)

/-- The constant-tick form, step by step (the structure `TickForm`: integer samples in range, each velocity its sample times
the tick): every step whose command is no `KIN.UPDATE` with another tick keeps it, from every state that has it; and with
constants S, M, U (the absolute values of the three as real numbers) that meet the three inequalities, every such command
completes there. Basis derived: 41_kinematics.md section 3. -/
def Obligations.EveryStepKeepsTheConstantTickForm : Prop :=
  (∀ (k : U16) (s t : State), TickForm k s.toRegs →
    (∀ w rest i, s.inputs = .command w :: rest → decode w = .instr i → hasTick k i = true) →
    step s = .next t → TickForm k t.toRegs) ∧
  (∀ (k : U16) (i : Instr) (s : State) (S M U : ℚ), TickForm k s.toRegs → hasTick k i = true →
    0 < s.cfg.maxAccel.toInt → S = |(s.cfg.scalingFactor.toInt : ℚ)| / 2 ^ 32 →
    M = |(s.cfg.maxAccel.toInt : ℚ)| / 2 ^ 32 → U = |(s.cfg.maxMovementUnit.toInt : ℚ)| / 2 ^ 32 →
    2 ^ 29 * S + 1 < 2 ^ 31 → (2 ^ 29 * S + 1) / M + 1 < 2 ^ 31 → ((2 ^ 29 * S + 1) / M + 1) * U + 1 < 2 ^ 31 →
    ∃ t, exec i s = .next t ∧ TickForm k t.toRegs)

/-- Under a constant tick, a command whose sample and whose predecessor's sample are both zero in a lane gives
displacement 0 in that lane, whatever went before. Basis derived: 41_kinematics.md section 3, case (b) of the law on zero
input. -/
def Obligations.ConstantTickReturnsToZero : Prop :=
  ∀ (k : U16) (is : List Instr) (s t u : State) (sx sy : I16),
    s.toRegs = Regs.zero → is.all (hasTick k) = true → execAll is s = .next t →
    exec (.kinUpdate sx sy k) t = .next u →
    ((lastSample (0#16, 0#16) is).1 = 0#16 → sx = 0#16 → u.dx = 0#8) ∧
    ((lastSample (0#16, 0#16) is).2 = 0#16 → sy = 0#16 → u.dy = 0#8)

/-- Sufficient conditions for no `FX_OVERFLOW`: with one tick for every `KIN.UPDATE` since reset and constants S, M, U (the
absolute values of the three as real numbers) that meet the three inequalities, every run of commands from the all-zero
registers completes. Basis derived: 41_kinematics.md section 3. -/
def Obligations.ConstantTickNeverOverflows : Prop :=
  ∀ (k : U16) (is : List Instr) (s : State) (S M U : ℚ),
    s.toRegs = Regs.zero → 0 < s.cfg.maxAccel.toInt → is.all (hasTick k) = true →
    S = |(s.cfg.scalingFactor.toInt : ℚ)| / 2 ^ 32 → M = |(s.cfg.maxAccel.toInt : ℚ)| / 2 ^ 32 →
    U = |(s.cfg.maxMovementUnit.toInt : ℚ)| / 2 ^ 32 →
    2 ^ 29 * S + 1 < 2 ^ 31 → (2 ^ 29 * S + 1) / M + 1 < 2 ^ 31 → ((2 ^ 29 * S + 1) / M + 1) * U + 1 < 2 ^ 31 →
    SafeRun is s

/-- Without a constant tick a residual velocity stays: from the all-zero registers, samples x = 300, 0, 0 with ticks 500,
250, 500 leave `VX` = 75 under any configuration under which they complete, and every later `KIN.UPDATE` with sample 0 that
completes leaves it so. Basis derived: 41_kinematics.md section 3, 90_conflicts.md C4. -/
def Obligations.VaryingTickLeavesVelocity : Prop :=
  ∀ (s t : State) (ks : List U16) (u : State), s.toRegs = Regs.zero →
    execAll [.kinUpdate 300#16 0#16 500#16, .kinUpdate 0#16 0#16 250#16, .kinUpdate 0#16 0#16 500#16] s = .next t →
    execAll (ks.map (.kinUpdate 0#16 0#16)) t = .next u →
    t.vx = fxInt 75 ∧ t.pax = fxInt 0 ∧ u.vx = fxInt 75 ∧ u.pax = fxInt 0

/-! ### MOUSE.ENCODE (42_mouse_encoder.md) -/

/-- R100: in every state and for every operand `MOUSE.ENCODE` completes, writes the three bytes bit by bit as the table of
the rule says, and changes nothing else; with the rule's worked example. -/
def Obligations.MouseEncodeWritesTheFrame : Prop :=
  (∀ s : State, decode 0x0201000000FD0005#64 = .instr (.mouseEncode 5#8 (BitVec.ofInt 8 (-3)) true false) ∧
    exec (.mouseEncode 5#8 (BitVec.ofInt 8 (-3)) true false) s = .next { s with mp := #v[0x6C#8, 0x05#8, 0x3D#8] }) ∧
  ∀ (dx dy : I8) (a b : Bool) (s : State), ∃ m : Vector Byte 3,
    exec (.mouseEncode dx dy a b) s = .next { s with mp := m } ∧
    m[0].getLsbD 7 = false ∧ m[0].getLsbD 6 = true ∧ m[0].getLsbD 5 = a ∧ m[0].getLsbD 4 = b ∧
    m[0].getLsbD 3 = dy.getLsbD 7 ∧ m[0].getLsbD 2 = dy.getLsbD 6 ∧
    m[0].getLsbD 1 = dx.getLsbD 7 ∧ m[0].getLsbD 0 = dx.getLsbD 6 ∧
    m[1].getLsbD 7 = false ∧ m[1].getLsbD 6 = false ∧ (∀ k, k < 6 → m[1].getLsbD k = dx.getLsbD k) ∧
    m[2].getLsbD 7 = false ∧ m[2].getLsbD 6 = false ∧ (∀ k, k < 6 → m[2].getLsbD k = dy.getLsbD k)

/-- R101: the encoder is a pure function of the four operands: the same operands give the same three bytes in any two
states, and every register other than `MP` is unchanged. -/
def Obligations.MouseEncodeIsPure : Prop :=
  ∀ (dx dy : I8) (a b : Bool) (s s' : State), ∃ m : Vector Byte 3,
    exec (.mouseEncode dx dy a b) s = .next { s with mp := m } ∧
    exec (.mouseEncode dx dy a b) s' = .next { s' with mp := m }

/-- The frame loses nothing: from the bytes that `MOUSE.ENCODE` leaves, the receiver's formulas recover the operands, for
every operand value. Basis derived: 42_mouse_encoder.md section 2. -/
def Obligations.MouseFrameRecoversOperands : Prop :=
  ∀ (dx dy : I8) (a b : Bool) (s t : State), exec (.mouseEncode dx dy a b) s = .next t →
    (((t.mp[0] &&& 0x03#8) <<< 6) ||| t.mp[1]).toInt = dx.toInt ∧
    (((t.mp[0] &&& 0x0C#8) <<< 4) ||| t.mp[2]).toInt = dy.toInt ∧
    t.mp[0].getLsbD 5 = a ∧ t.mp[0].getLsbD 4 = b ∧ readMouseFrame t.mp = ⟨dx, dy, a, b⟩

/-- The frames are exactly the framed byte triples: the first byte in 0x40..0x7F, the others in 0x00..0x3F. Every
`MOUSE.ENCODE` leaves such a triple, and every such triple is left by one. Basis derived: 42_mouse_encoder.md section 2. -/
def Obligations.MouseFramesAreTheFramedTriples : Prop :=
  ∀ (m : Vector Byte 3) (s : State),
    (0x40 ≤ m[0].toNat ∧ m[0].toNat ≤ 0x7F ∧ m[1].toNat ≤ 0x3F ∧ m[2].toNat ≤ 0x3F) ↔
      ∃ dx dy a b, exec (.mouseEncode dx dy a b) s = .next { s with mp := m }

/-! ### KEY.ENCODE (43_keyboard_encoder.md) -/

/-- R111, the channel table: sequences, offsets, lengths and activation conditions of the four channels. -/
def Obligations.ChannelTable : Prop :=
  Channel.a.makeCode = [0x1A#8] ∧ Channel.a.breakCode = [0xF0#8, 0x1A#8] ∧
  Channel.a.offset = 0 ∧ Channel.a.length = 2 ∧
  Channel.b.makeCode = [0x22#8] ∧ Channel.b.breakCode = [0xF0#8, 0x22#8] ∧
  Channel.b.offset = 2 ∧ Channel.b.length = 2 ∧
  Channel.l.makeCode = [0xE0#8, 0x6B#8] ∧ Channel.l.breakCode = [0xE0#8, 0xF0#8, 0x6B#8] ∧
  Channel.l.offset = 4 ∧ Channel.l.length = 3 ∧
  Channel.r.makeCode = [0xE0#8, 0x74#8] ∧ Channel.r.breakCode = [0xE0#8, 0xF0#8, 0x74#8] ∧
  Channel.r.offset = 7 ∧ Channel.r.length = 3 ∧
  (∀ (x : I16) (a b : Bool),
    (Channel.a.condition x a b = true ↔ a = true) ∧ (Channel.b.condition x a b = true ↔ b = true) ∧
    (Channel.l.condition x a b = true ↔ x.toInt < -300) ∧ (Channel.r.condition x a b = true ↔ x.toInt > 300))

/-- R112: the thresholds are strict, the same for entering and leaving, and nothing delays an event: `cond_L` holds exactly
for -32768..-301, `cond_R` exactly for 301..32767, and a tilt that alternates between -300 and -301 makes an event of L on
every command, whatever the state. -/
def Obligations.ThresholdsAreStrict : Prop :=
  (∀ (x : I16) (a b : Bool),
    (Channel.l.condition x a b = true ↔ -32768 ≤ x.toInt ∧ x.toInt ≤ -301) ∧
    (Channel.r.condition x a b = true ↔ 301 ≤ x.toInt ∧ x.toInt ≤ 32767) ∧
    (-300 ≤ x.toInt → x.toInt ≤ 300 → Channel.l.condition x a b = false ∧ Channel.r.condition x a b = false) ∧
    Channel.a.condition x a b = a ∧ Channel.b.condition x a b = b) ∧
  (∀ (a b a' b' : Bool) (s t u : State),
    exec (.keyEncode (BitVec.ofInt 16 (-300)) a b) s = .next t →
    exec (.keyEncode (BitVec.ofInt 16 (-301)) a' b') t = .next u →
    Channel.l.range u.kp = [0xE0#8, 0x6B#8, 0x00#8]) ∧
  (∀ (a b a' b' : Bool) (s t u : State),
    exec (.keyEncode (BitVec.ofInt 16 (-301)) a b) s = .next t →
    exec (.keyEncode (BitVec.ofInt 16 (-300)) a' b') t = .next u →
    Channel.l.range u.kp = [0xE0#8, 0xF0#8, 0x6B#8])

/-- R113, the transition rule of one channel: its four rows, and for every channel the sequence each event emits. -/
def Obligations.TransitionTable : Prop :=
  transition false false = (.nothing, false) ∧ transition false true = (.make, true) ∧
  transition true false = (.release, false) ∧ transition true true = (.nothing, true) ∧
  (∀ c : Channel, c.emission .nothing = [] ∧ c.emission .make = c.makeCode ∧ c.emission .release = c.breakCode)

/-- R110 with R114: in every state (both tilt latches set included) and for every operand `KEY.ENCODE` completes; each
latch and each channel's range come from the transition rule on the latch before the command; the range holds the emitted
sequence left-aligned and zero after it; the spare byte is zero; and nothing else changes; with the rule's worked example
from the all-zero registers. -/
def Obligations.KeyEncodeRunsTheTransitions : Prop :=
  (∀ s : State, s.toRegs = Regs.zero → decode 0x0301000000000000#64 = .instr (.keyEncode 0#16 true false) ∧
    exec (.keyEncode 0#16 true false) s = .next { s with
      ea := true
      kp := #v[0x1A#8, 0#8, 0#8, 0#8, 0#8, 0#8, 0#8, 0#8, 0#8, 0#8, 0#8] }) ∧
  ∀ (x : I16) (a b : Bool) (s : State), ∃ (p : Vector Byte 11) (la lb ll lr : Bool),
    exec (.keyEncode x a b) s = .next { s with kp := p, ea := la, eb := lb, el := ll, er := lr } ∧
    (la = (transition s.ea a).2 ∧ lb = (transition s.eb b).2 ∧
      ll = (transition s.el (x.toInt < -300)).2 ∧ lr = (transition s.er (x.toInt > 300)).2) ∧
    p.toList =
      (Channel.a.emission (transition s.ea a).1 ++ [0#8, 0#8]).take 2 ++
      (Channel.b.emission (transition s.eb b).1 ++ [0#8, 0#8]).take 2 ++
      (Channel.l.emission (transition s.el (x.toInt < -300)).1 ++ [0#8, 0#8, 0#8]).take 3 ++
      (Channel.r.emission (transition s.er (x.toInt > 300)).1 ++ [0#8, 0#8, 0#8]).take 3 ++ [0#8]

/-- R115: the channels are independent: what channel c emits and its new latch depend on its own latch and condition only,
and the order in which the channels are processed does not affect the packet. -/
def Obligations.ChannelsAreIndependent : Prop :=
  (∀ (c : Channel) (x x' : I16) (a a' b b' : Bool) (s s' t t' : State),
    c.latch s'.toRegs = c.latch s.toRegs → c.condition x' a' b' = c.condition x a b →
    exec (.keyEncode x a b) s = .next t → exec (.keyEncode x' a' b') s' = .next t' →
    c.range t'.kp = c.range t.kp ∧ c.latch t'.toRegs = c.latch t.toRegs) ∧
  (∀ (order : List Channel) (x : I16) (a b : Bool) (r : Regs), order.Perm channels →
    putEmissions x a b r order zeroPacket = keyPacket x a b r)

/-- After every `KEY.ENCODE` each latch equals the condition the command computed for its channel: the new latches do not
depend on the old ones. Basis derived: 43_keyboard_encoder.md section 3. -/
def Obligations.LatchesEqualConditions : Prop :=
  ∀ (x : I16) (a b : Bool) (s t : State), exec (.keyEncode x a b) s = .next t →
    t.ea = a ∧ t.eb = b ∧ t.el = decide (x.toInt < -300) ∧ t.er = decide (x.toInt > 300)

/-- Idempotence: of two consecutive `KEY.ENCODE` in which a channel has the same condition, the second emits nothing for it
and leaves its latch, whatever the first did; with identical operands the second packet is all zero. Basis derived:
43_keyboard_encoder.md section 3. -/
def Obligations.RepeatedConditionsEmitNothing : Prop :=
  ∀ (x x' : I16) (a a' b b' : Bool) (s t u : State),
    exec (.keyEncode x a b) s = .next t → exec (.keyEncode x' a' b') t = .next u →
    (∀ c : Channel, c.condition x' a' b' = c.condition x a b →
      c.range u.kp = List.replicate c.length 0#8 ∧ c.latch u.toRegs = c.latch t.toRegs) ∧
    (x' = x → a' = a → b' = b → ∀ i : Fin 11, u.kp[i] = 0#8)

/-- The tilt channels exclude each other: no tilt activates both, no `KEY.ENCODE` leaves both latches set or makes both
keys, and a swing from left to right releases left and makes right in one packet, left first. Basis derived:
43_keyboard_encoder.md section 3. -/
def Obligations.TiltChannelsExclude : Prop :=
  (∀ (x : I16) (a b : Bool) (s t : State), exec (.keyEncode x a b) s = .next t →
    ¬ (Channel.l.condition x a b = true ∧ Channel.r.condition x a b = true) ∧
    ¬ (t.el = true ∧ t.er = true) ∧
    ¬ (Channel.l.readEvent t.kp = some .make ∧ Channel.r.readEvent t.kp = some .make)) ∧
  (∀ (x : I16) (s t : State), s.ea = false → s.eb = false → s.el = true → s.er = false → 300 < x.toInt →
    exec (.keyEncode x false false) s = .next t →
    Channel.l.range t.kp = [0xE0#8, 0xF0#8, 0x6B#8] ∧ Channel.r.range t.kp = [0xE0#8, 0x74#8, 0x00#8] ∧
    kstream t.kp = [0xE0#8, 0xF0#8, 0x6B#8, 0xE0#8, 0x74#8])

/-- The emitted stream is the emissions in channel order, and its length is at most 9 unless both tilt latches were set,
at most 10 in any state; 9 is attained; the spare byte is never written. Basis derived: 20_memory.md section 3 and
43_keyboard_encoder.md section 3. -/
def Obligations.KeyStreamIsTheEmissions : Prop :=
  (∀ (x : I16) (a b : Bool) (s t : State), exec (.keyEncode x a b) s = .next t →
    kstream t.kp =
      Channel.a.emission (Channel.a.event x a b s.toRegs) ++ Channel.b.emission (Channel.b.event x a b s.toRegs) ++
      Channel.l.emission (Channel.l.event x a b s.toRegs) ++ Channel.r.emission (Channel.r.event x a b s.toRegs) ∧
    (¬ (s.el = true ∧ s.er = true) → (kstream t.kp).length ≤ 9) ∧ (kstream t.kp).length ≤ 10 ∧ t.kp[10] = 0#8) ∧
  (∃ (x : I16) (a b : Bool) (s t : State), ¬ (s.el = true ∧ s.er = true) ∧
    exec (.keyEncode x a b) s = .next t ∧ (kstream t.kp).length = 9)

/-- Reading events back: after any `KEY.ENCODE`, each channel's range is all zero, its make sequence and a zero, or its
break sequence, and tells what the channel did. Basis derived: 43_keyboard_encoder.md section 3. -/
def Obligations.KeyEventsReadBack : Prop :=
  ∀ (x : I16) (a b : Bool) (s t : State), exec (.keyEncode x a b) s = .next t →
    ∀ c : Channel, c.readEvent t.kp = some (c.event x a b s.toRegs)

/-- The pairing invariant: over any commands from the all-zero registers, for each channel, the makes read from the packets
less the breaks are 0 or 1 and equal its latch, which is the condition of its last `KEY.ENCODE`; and makes and breaks
strictly alternate, a make first. Basis derived: 43_keyboard_encoder.md section 3. -/
def Obligations.MakesAndBreaksPair : Prop :=
  ∀ (c : Channel) (is : List Instr) (s t : State), s.toRegs = Regs.zero → execAll is s = .next t →
    ((channelEvents c is s).count .make : Int) - (channelEvents c is s).count .release =
      (if c.latch t.toRegs then 1 else 0) ∧
    c.latch t.toRegs = lastCondition c false is ∧
    alternates false (channelEvents c is s) = true

/-- The pairing, command by command, from every state: a `KEY.ENCODE` leaves one event of each channel in its packet, which
adds exactly the change of the channel's latch (a make only from an inactive latch, a break only from an active one); every
other command leaves the latch and the packet; so the pairing with what was emitted so far (the structure `Paired`) is kept
by every command. Basis derived: 43_keyboard_encoder.md section 3. -/
def Obligations.EveryCommandKeepsThePairing : Prop :=
  ∀ (c : Channel) (i : Instr) (s t : State), exec i s = .next t →
    (∀ x a b, i = .keyEncode x a b → ∃ e, c.readEvent t.kp = some e ∧ channelEvents c [i] s = [e] ∧
      latchNumber (c.latch t.toRegs) = latchNumber (c.latch s.toRegs) + e.balance ∧
      (e = .make → c.latch s.toRegs = false ∧ c.latch t.toRegs = true) ∧
      (e = .release → c.latch s.toRegs = true ∧ c.latch t.toRegs = false)) ∧
    ((∀ x a b, i ≠ .keyEncode x a b) →
      channelEvents c [i] s = [] ∧ c.latch t.toRegs = c.latch s.toRegs ∧ t.kp = s.kp) ∧
    (∀ emitted, Paired c emitted s.toRegs → Paired c (emitted ++ channelEvents c [i] s) t.toRegs)

/-! ### The clocked interface (10_state.md R23 to R25, 70_reset_and_hazards.md) -/

/-- At an edge with `rst` = 1, whatever the block was doing and whatever is offered: no command is accepted, every register
takes its reset value, a command in flight is abandoned, and at the next edge without `rst` the block is ready. Basis
derived: 70_reset_and_hazards.md section 1, 60_exceptions.md section 3 (b). -/
def Obligations.ResetEdgeWins : Prop :=
  ∀ (b : Block) (p : Pins), p.rst = true →
    b.accepts p = none ∧ b.cmdReady true = false ∧
    b.edge p = { cfg := b.cfg, regs := some Regs.zero, flight := none } ∧ (b.edge p).cmdReady false = true

/-- From its acceptance until its completion a command holds `cmd_ready` at 0, no word offered meanwhile is accepted or has
any effect, and the registers and ports do not change; at the `LAT`th edge after acceptance all its writes happen and the
block is ready again. That a block without defined registers (just powered on, or after `FX_OVERFLOW`) takes commands in the
same way is the model's choice (logs 10, 11), as is readiness wherever no command is in flight (log 9). Basis derived:
10_state.md section 8, 70_reset_and_hazards.md section 4. -/
def Obligations.CommandsCompleteAfterTheirLatency : Prop :=
  ∀ (b : Block) (p : Pins) (ps : List Pins),
    b.cfg.wf = true → b.flight = none → p.rst = false → p.cmdValid = true → (∀ q ∈ ps, q.rst = false) →
    (ps.length < latency b.cfg p.cmd →
      (Block.run (p :: ps) b).regs = b.regs ∧ (Block.run (p :: ps) b).ports = b.ports ∧
      (Block.run (p :: ps) b).cmdReady false = false ∧ ∀ q, (Block.run (p :: ps) b).accepts q = none) ∧
    (ps.length = latency b.cfg p.cmd →
      Block.run (p :: ps) b = { cfg := b.cfg, regs := completeWord b.cfg p.cmd b.regs, flight := none })

/-- The block's registers are a function of the configuration and the words accepted since reset: over any edges from an
idle block, whenever no command is in flight, they are the result of the accepted words one after the other from the reset
registers (from the block's own where there was no reset). Basis derived: 10_state.md section 8, "the behaviour of the
block is a function from (configuration, list of accepted command words since reset) to state". -/
def Obligations.EdgesRunTheAcceptedWords : Prop :=
  ∀ (ps : List Pins) (b : Block), b.flight = none → (Block.run ps b).flight = none →
    (Block.run ps b).regs =
      completeWords b.cfg (Block.acceptedSinceReset [] ps b)
        (if ps.any Pins.rst then some Regs.zero else b.regs)

/-- The same edge by edge: at every edge, from every block whose registers are what the accepted words leave, they are so
after it, with the word accepted at that edge added and the list begun anew by a reset (`Block.HasRun`); an idle block has
that form with no word accepted. Where the block has no defined register value, that it takes words is the model's choice
(logs 10, 11). Basis derived: 10_state.md section 8, 70_reset_and_hazards.md section 1. -/
def Obligations.EveryEdgeKeepsTheAcceptedWords : Prop :=
  (∀ (b : Block) (p : Pins) (accepted : List CmdWord) (start : Option Regs), b.HasRun accepted start →
    (b.edge p).HasRun (if p.rst then [] else accepted ++ (b.accepts p).toList)
      (if p.rst then some Regs.zero else start)) ∧
  (∀ b : Block, b.flight = none → b.HasRun [] b.regs)

/-- What a legal word leaves in the clocked interface is what the step leaves: the registers of the next state, and no
defined value where the step stops. Basis derived: 10_state.md section 8, 60_exceptions.md section 1 (log 10). -/
def Obligations.CompletionIsTheStep : Prop :=
  ∀ (c : Config) (r : Regs) (w : CmdWord) (rest : List HostMove), w.wf = true →
    completeWord c w (some r) =
      match step { toRegs := r, cfg := c, inputs := .command w :: rest } with
      | .next t => some t.toRegs
      | .fault _ => none
      | .refused _ => none

/-- After `FX_OVERFLOW` only reset returns the block to a defined state: without defined registers, edges without `rst`
never give any, and the first edge with `rst` gives the reset registers. Basis derived: 60_exceptions.md section 4,
"After FX_OVERFLOW the only way back to a defined state is reset" (log 10). -/
def Obligations.OnlyResetRecovers : Prop :=
  ∀ (ps : List Pins) (b : Block), b.regs = none →
    ((∀ p ∈ ps, p.rst = false) → (Block.run ps b).regs = none) ∧
    (∀ p : Pins, p.rst = true → (Block.run (ps ++ [p]) b).regs = some Regs.zero)

/-! ### The assembler (30_encoding.md R54) -/

/-- A line whose operands are in range assembles to a word that decodes to the command with exactly those operand values (a
port standing for the value read from it, in either place and beside an integer or another port); a line with an operand out
of range is an error, never a wrapped value; `RESET` is the reset event. Basis derived: 30_encoding.md section 7. -/
def Obligations.AssemblerKeepsOperandValues : Prop :=
  (∀ (ports : Ports) (sx sy t : Int),
    if -32768 ≤ sx ∧ sx ≤ 32767 ∧ -32768 ≤ sy ∧ sy ≤ 32767 ∧ 0 ≤ t ∧ t ≤ 65535 then
      ∃ (w : CmdWord) (x y : I16) (k : U16), assemble ports (.kinUpdate sx sy t) = some (.command w) ∧
        decode w = .instr (.kinUpdate x y k) ∧ x.toInt = sx ∧ y.toInt = sy ∧ (k.toNat : Int) = t
    else assemble ports (.kinUpdate sx sy t) = none) ∧
  (∀ (ports : Ports) (dx dy : AsmOperand) (a b : Bool),
    (displacementInRange dx ∧ displacementInRange dy → ∃ (w : CmdWord) (x y : I8),
      assemble ports (.mouseEncode dx dy a b) = some (.command w) ∧
      decode w = .instr (.mouseEncode x y a b) ∧ displacementDenotes ports x dx ∧ displacementDenotes ports y dy) ∧
    (¬ (displacementInRange dx ∧ displacementInRange dy) → assemble ports (.mouseEncode dx dy a b) = none)) ∧
  (∀ (ports : Ports) (x : Int) (a b : Bool),
    if -32768 ≤ x ∧ x ≤ 32767 then
      ∃ (w : CmdWord) (v : I16), assemble ports (.keyEncode x a b) = some (.command w) ∧
        decode w = .instr (.keyEncode v a b) ∧ v.toInt = x
    else assemble ports (.keyEncode x a b) = none) ∧
  (∀ ports : Ports, assemble ports .reset = some .reset)
end

