-- ==== Sys2Proof/Laws/Decode.lean ====
section
/-! SUPPORT. What the decoder can answer (spec 30_encoding.md R52), said once: each arm with the mask test it passed. -/

namespace Sys2Proof

/-- What `decode` answers: the operation of the row the word selects, its operands cut from their fields, or illegal when
the word selects no row. -/
theorem decode_cases (w : CmdWord) :
    (rowKinUpdate.selects w = true ∧ decode w = .instr (.kinUpdate (fieldF0 w) (fieldF1 w) (fieldF2 w))) ∨
    (rowMouseEncode.selects w = true ∧
      decode w = .instr (.mouseEncode (fieldF0Low w) (fieldF1Low w) (fieldBA w) (fieldBB w))) ∨
    (rowKeyEncode.selects w = true ∧ decode w = .instr (.keyEncode (fieldF0 w) (fieldBA w) (fieldBB w))) ∨
    (rowKinUpdate.selects w = false ∧ rowMouseEncode.selects w = false ∧ rowKeyEncode.selects w = false ∧
      decode w = .illegal (whyIllegal w)) := by
  unfold decode
  cases h1 : rowKinUpdate.selects w <;> cases h2 : rowMouseEncode.selects w <;>
    cases h3 : rowKeyEncode.selects w <;> simp

/-- The bits of a placed pattern: the pattern's own, moved up. -/
theorem getLsbD_placeAt {n : Nat} (p : Nat) (v : BitVec n) (k : Nat) :
    (placeAt p v).getLsbD k = (decide (k < 64) && !decide (k < p) && v.getLsbD (k - p)) := by
  by_cases h : k < 64 <;> by_cases hp : k < p <;> simp [placeAt, h, hp]

/-- A Boolean field's one bit. -/
theorem getLsbD_boolBit (b : Bool) (k : Nat) : (boolBit b).getLsbD k = (decide (k = 0) && b) := by
  cases b <;> cases k <;> simp [boolBit]

theorem getElem_placeAt {n : Nat} (p : Nat) (v : BitVec n) (k : Nat) (h : k < 64) :
    (placeAt p v)[k] = (!decide (k < p) && v.getLsbD (k - p)) := by
  rw [← BitVec.getLsbD_eq_getElem, getLsbD_placeAt]
  simp [h]

theorem getElem_boolBit (b : Bool) : (boolBit b)[0] = b := by
  cases b <;> rfl

/-- A word that selects a row carries that row's `OP`. -/
theorem fieldOp_of_selects {r : OpcodeRow} {w : CmdWord} (h : r.selects w = true)
    (hm : r.mask &&& 0xFF00000000000000#64 = 0xFF00000000000000#64) : fieldOp w = fieldOp r.pattern := by
  have h : w &&& r.mask = r.pattern := by simpa [OpcodeRow.selects] using h
  apply BitVec.eq_of_getLsbD_eq
  intro k hk
  have hk8 : k < 8 := by simpa using hk
  have hb : r.mask.getLsbD (56 + k) = true := by
    have := congrArg (fun v => v.getLsbD (56 + k)) hm
    have hc : (0xFF00000000000000#64).getLsbD (56 + k) = true := by interval_cases k <;> decide
    simp only [BitVec.getLsbD_and, hc, Bool.and_true] at this
    exact this
  simp [fieldOp, hk8, ← h, hb]

end Sys2Proof
end

