-- ==== Sys2Proof/Laws/FixedPoint.lean ====
section
/-! SUPPORT. What each fixed-point primitive does (spec 40_fixed_point.md), one lemma each: when it answers, with what
raw, and when it overflows. -/

namespace Sys2Proof.Machine

/-- The kernel-evaluable constants and the ranges of the claims are the same numbers. -/
theorem fxInRange_iff_fitsFX (r : Int) : fxInRange r ↔ fitsFX r := by
  simp [fxInRange, fxMinRaw, fxMaxRaw]

/-- Every raw fits (R66). -/
theorem fitsFX_raw (a : FX) : fitsFX a.toInt := by
  have h1 := BitVec.le_toInt a
  have h2 := BitVec.toInt_lt (x := a)
  constructor <;> simp at * <;> omega

/-- A raw in range is the raw of the FX value made from it. -/
theorem toInt_ofInt_of_fits {r : Int} (h : fitsFX r) : (BitVec.ofInt 64 r).toInt = r := by
  rw [BitVec.toInt_ofInt]
  obtain ⟨h1, h2⟩ := h
  exact Int.bmod_eq_of_le (by norm_num; omega) (by norm_num; omega)

/-- `fxNarrow` answers exactly the raws in range, with that raw (R66, R73). -/
theorem fxNarrow_eq_some {r : Int} {x : FX} : fxNarrow r = some x ↔ fitsFX r ∧ x = BitVec.ofInt 64 r := by
  rw [← fxInRange_iff_fitsFX]
  by_cases h : fxInRange r <;> simp [fxNarrow, h, eq_comm]

/-- `fxNarrow` overflows exactly outside the range (R73). -/
theorem fxNarrow_eq_none {r : Int} : fxNarrow r = none ↔ ¬ fitsFX r := by
  rw [← fxInRange_iff_fitsFX]
  by_cases h : fxInRange r <;> simp [fxNarrow, h]

/-- The one rounding mode is the floor of the quotient (R74). -/
@[simp] theorem roundedQuotient_eq (rnd : Rounding) (n d : Int) : roundedQuotient rnd n d = n / d := by
  cases rnd; rfl

@[simp] theorem fxOne_eq : fxOne = 0x100000000 := rfl

/-- `fx_int` is exact on every integer the hardware gives it (R67). -/
theorem toInt_fxInt {n : Int} (h1 : -2147483648 ≤ n) (h2 : n ≤ 2147483647) :
    (fxInt n).toInt = n * 0x100000000 :=
  toInt_ofInt_of_fits (by constructor <;> simp only [fxOne_eq] <;> omega)

/-- `fx_add` (R68, R73). -/
theorem fxAdd_eq_some {a b x : FX} :
    fxAdd a b = some x ↔ fitsFX (a.toInt + b.toInt) ∧ x = BitVec.ofInt 64 (a.toInt + b.toInt) :=
  fxNarrow_eq_some

/-- `fx_sub` (R68, R73). -/
theorem fxSub_eq_some {a b x : FX} :
    fxSub a b = some x ↔ fitsFX (a.toInt - b.toInt) ∧ x = BitVec.ofInt 64 (a.toInt - b.toInt) :=
  fxNarrow_eq_some

/-- `fx_mul` (R69, R73). -/
theorem fxMul_eq_some {rnd : Rounding} {a b x : FX} :
    fxMul rnd a b = some x ↔
      fitsFX (a.toInt * b.toInt / 0x100000000) ∧ x = BitVec.ofInt 64 (a.toInt * b.toInt / 0x100000000) := by
  simp [fxMul, fxRaw, fxNarrow_eq_some]

/-- `fx_div` by a positive divisor (R70, R73). -/
theorem fxDiv_eq_some {rnd : Rounding} {a b x : FX} (hb : 0 < b.toInt) :
    fxDiv rnd a b = some x ↔
      fitsFX (a.toInt * 0x100000000 / b.toInt) ∧ x = BitVec.ofInt 64 (a.toInt * 0x100000000 / b.toInt) := by
  simp [fxDiv, fxRaw, hb, fxNarrow_eq_some]

end Sys2Proof.Machine
end

