-- ==== Sys2Proof/Laws/State.lean ====
section
/-! SUPPORT. One lemma for each field under each named update of the state (Machine/Ops.lean), all by definition, so that no
proof unfolds a record update. -/

namespace Sys2Proof.Machine

@[simp] theorem State.writeKinematics_pax (s : State) (x y : LaneResult) : (s.writeKinematics x y).pax = x.sample := rfl
@[simp] theorem State.writeKinematics_pay (s : State) (x y : LaneResult) : (s.writeKinematics x y).pay = y.sample := rfl
@[simp] theorem State.writeKinematics_vx (s : State) (x y : LaneResult) : (s.writeKinematics x y).vx = x.velocity := rfl
@[simp] theorem State.writeKinematics_vy (s : State) (x y : LaneResult) : (s.writeKinematics x y).vy = y.velocity := rfl
@[simp] theorem State.writeKinematics_dx (s : State) (x y : LaneResult) : (s.writeKinematics x y).dx = x.displacement := rfl
@[simp] theorem State.writeKinematics_dy (s : State) (x y : LaneResult) : (s.writeKinematics x y).dy = y.displacement := rfl
@[simp] theorem State.writeKinematics_ea (s : State) (x y : LaneResult) : (s.writeKinematics x y).ea = s.ea := rfl
@[simp] theorem State.writeKinematics_eb (s : State) (x y : LaneResult) : (s.writeKinematics x y).eb = s.eb := rfl
@[simp] theorem State.writeKinematics_el (s : State) (x y : LaneResult) : (s.writeKinematics x y).el = s.el := rfl
@[simp] theorem State.writeKinematics_er (s : State) (x y : LaneResult) : (s.writeKinematics x y).er = s.er := rfl
@[simp] theorem State.writeKinematics_mp (s : State) (x y : LaneResult) : (s.writeKinematics x y).mp = s.mp := rfl
@[simp] theorem State.writeKinematics_kp (s : State) (x y : LaneResult) : (s.writeKinematics x y).kp = s.kp := rfl
@[simp] theorem State.writeKinematics_cfg (s : State) (x y : LaneResult) : (s.writeKinematics x y).cfg = s.cfg := rfl
@[simp] theorem State.writeKinematics_inputs (s : State) (x y : LaneResult) : (s.writeKinematics x y).inputs = s.inputs := rfl

@[simp] theorem State.writeMousePacket_pax (s : State) (m : Vector Byte mpLen) : (s.writeMousePacket m).pax = s.pax := rfl
@[simp] theorem State.writeMousePacket_pay (s : State) (m : Vector Byte mpLen) : (s.writeMousePacket m).pay = s.pay := rfl
@[simp] theorem State.writeMousePacket_vx (s : State) (m : Vector Byte mpLen) : (s.writeMousePacket m).vx = s.vx := rfl
@[simp] theorem State.writeMousePacket_vy (s : State) (m : Vector Byte mpLen) : (s.writeMousePacket m).vy = s.vy := rfl
@[simp] theorem State.writeMousePacket_dx (s : State) (m : Vector Byte mpLen) : (s.writeMousePacket m).dx = s.dx := rfl
@[simp] theorem State.writeMousePacket_dy (s : State) (m : Vector Byte mpLen) : (s.writeMousePacket m).dy = s.dy := rfl
@[simp] theorem State.writeMousePacket_ea (s : State) (m : Vector Byte mpLen) : (s.writeMousePacket m).ea = s.ea := rfl
@[simp] theorem State.writeMousePacket_eb (s : State) (m : Vector Byte mpLen) : (s.writeMousePacket m).eb = s.eb := rfl
@[simp] theorem State.writeMousePacket_el (s : State) (m : Vector Byte mpLen) : (s.writeMousePacket m).el = s.el := rfl
@[simp] theorem State.writeMousePacket_er (s : State) (m : Vector Byte mpLen) : (s.writeMousePacket m).er = s.er := rfl
@[simp] theorem State.writeMousePacket_mp (s : State) (m : Vector Byte mpLen) : (s.writeMousePacket m).mp = m := rfl
@[simp] theorem State.writeMousePacket_kp (s : State) (m : Vector Byte mpLen) : (s.writeMousePacket m).kp = s.kp := rfl
@[simp] theorem State.writeMousePacket_cfg (s : State) (m : Vector Byte mpLen) : (s.writeMousePacket m).cfg = s.cfg := rfl
@[simp] theorem State.writeMousePacket_inputs (s : State) (m : Vector Byte mpLen) : (s.writeMousePacket m).inputs = s.inputs := rfl

@[simp] theorem State.writeKeyPacket_pax (s : State) (k : Vector Byte kpLen) (a b l r : Bool) : (s.writeKeyPacket k a b l r).pax = s.pax := rfl
@[simp] theorem State.writeKeyPacket_pay (s : State) (k : Vector Byte kpLen) (a b l r : Bool) : (s.writeKeyPacket k a b l r).pay = s.pay := rfl
@[simp] theorem State.writeKeyPacket_vx (s : State) (k : Vector Byte kpLen) (a b l r : Bool) : (s.writeKeyPacket k a b l r).vx = s.vx := rfl
@[simp] theorem State.writeKeyPacket_vy (s : State) (k : Vector Byte kpLen) (a b l r : Bool) : (s.writeKeyPacket k a b l r).vy = s.vy := rfl
@[simp] theorem State.writeKeyPacket_dx (s : State) (k : Vector Byte kpLen) (a b l r : Bool) : (s.writeKeyPacket k a b l r).dx = s.dx := rfl
@[simp] theorem State.writeKeyPacket_dy (s : State) (k : Vector Byte kpLen) (a b l r : Bool) : (s.writeKeyPacket k a b l r).dy = s.dy := rfl
@[simp] theorem State.writeKeyPacket_ea (s : State) (k : Vector Byte kpLen) (a b l r : Bool) : (s.writeKeyPacket k a b l r).ea = a := rfl
@[simp] theorem State.writeKeyPacket_eb (s : State) (k : Vector Byte kpLen) (a b l r : Bool) : (s.writeKeyPacket k a b l r).eb = b := rfl
@[simp] theorem State.writeKeyPacket_el (s : State) (k : Vector Byte kpLen) (a b l r : Bool) : (s.writeKeyPacket k a b l r).el = l := rfl
@[simp] theorem State.writeKeyPacket_er (s : State) (k : Vector Byte kpLen) (a b l r : Bool) : (s.writeKeyPacket k a b l r).er = r := rfl
@[simp] theorem State.writeKeyPacket_mp (s : State) (k : Vector Byte kpLen) (a b l r : Bool) : (s.writeKeyPacket k a b l r).mp = s.mp := rfl
@[simp] theorem State.writeKeyPacket_kp (s : State) (k : Vector Byte kpLen) (a b l r : Bool) : (s.writeKeyPacket k a b l r).kp = k := rfl
@[simp] theorem State.writeKeyPacket_cfg (s : State) (k : Vector Byte kpLen) (a b l r : Bool) : (s.writeKeyPacket k a b l r).cfg = s.cfg := rfl
@[simp] theorem State.writeKeyPacket_inputs (s : State) (k : Vector Byte kpLen) (a b l r : Bool) : (s.writeKeyPacket k a b l r).inputs = s.inputs := rfl

@[simp] theorem State.resetRegs_pax (s : State) : (s.resetRegs).pax = Regs.zero.pax := rfl
@[simp] theorem State.resetRegs_pay (s : State) : (s.resetRegs).pay = Regs.zero.pay := rfl
@[simp] theorem State.resetRegs_vx (s : State) : (s.resetRegs).vx = Regs.zero.vx := rfl
@[simp] theorem State.resetRegs_vy (s : State) : (s.resetRegs).vy = Regs.zero.vy := rfl
@[simp] theorem State.resetRegs_dx (s : State) : (s.resetRegs).dx = Regs.zero.dx := rfl
@[simp] theorem State.resetRegs_dy (s : State) : (s.resetRegs).dy = Regs.zero.dy := rfl
@[simp] theorem State.resetRegs_ea (s : State) : (s.resetRegs).ea = Regs.zero.ea := rfl
@[simp] theorem State.resetRegs_eb (s : State) : (s.resetRegs).eb = Regs.zero.eb := rfl
@[simp] theorem State.resetRegs_el (s : State) : (s.resetRegs).el = Regs.zero.el := rfl
@[simp] theorem State.resetRegs_er (s : State) : (s.resetRegs).er = Regs.zero.er := rfl
@[simp] theorem State.resetRegs_mp (s : State) : (s.resetRegs).mp = Regs.zero.mp := rfl
@[simp] theorem State.resetRegs_kp (s : State) : (s.resetRegs).kp = Regs.zero.kp := rfl
@[simp] theorem State.resetRegs_cfg (s : State) : (s.resetRegs).cfg = s.cfg := rfl
@[simp] theorem State.resetRegs_inputs (s : State) : (s.resetRegs).inputs = s.inputs := rfl

@[simp] theorem State.withInputs_pax (s : State) (m : List HostMove) : (s.withInputs m).pax = s.pax := rfl
@[simp] theorem State.withInputs_pay (s : State) (m : List HostMove) : (s.withInputs m).pay = s.pay := rfl
@[simp] theorem State.withInputs_vx (s : State) (m : List HostMove) : (s.withInputs m).vx = s.vx := rfl
@[simp] theorem State.withInputs_vy (s : State) (m : List HostMove) : (s.withInputs m).vy = s.vy := rfl
@[simp] theorem State.withInputs_dx (s : State) (m : List HostMove) : (s.withInputs m).dx = s.dx := rfl
@[simp] theorem State.withInputs_dy (s : State) (m : List HostMove) : (s.withInputs m).dy = s.dy := rfl
@[simp] theorem State.withInputs_ea (s : State) (m : List HostMove) : (s.withInputs m).ea = s.ea := rfl
@[simp] theorem State.withInputs_eb (s : State) (m : List HostMove) : (s.withInputs m).eb = s.eb := rfl
@[simp] theorem State.withInputs_el (s : State) (m : List HostMove) : (s.withInputs m).el = s.el := rfl
@[simp] theorem State.withInputs_er (s : State) (m : List HostMove) : (s.withInputs m).er = s.er := rfl
@[simp] theorem State.withInputs_mp (s : State) (m : List HostMove) : (s.withInputs m).mp = s.mp := rfl
@[simp] theorem State.withInputs_kp (s : State) (m : List HostMove) : (s.withInputs m).kp = s.kp := rfl
@[simp] theorem State.withInputs_cfg (s : State) (m : List HostMove) : (s.withInputs m).cfg = s.cfg := rfl
@[simp] theorem State.withInputs_inputs (s : State) (m : List HostMove) : (s.withInputs m).inputs = m := rfl

@[simp] theorem State.withInputs_toRegs (s : State) (m : List HostMove) : (s.withInputs m).toRegs = s.toRegs := rfl
@[simp] theorem State.resetRegs_toRegs (s : State) : s.resetRegs.toRegs = Regs.zero := rfl
@[simp] theorem State.withInputs_self (s : State) : s.withInputs s.inputs = s := rfl
@[simp] theorem State.withInputs_withInputs (s : State) (m n : List HostMove) :
    (s.withInputs m).withInputs n = s.withInputs n := rfl

end Sys2Proof.Machine
end

