-- ==== Sys2Proof/Laws/Keyboard.lean ====
section
/-! SUPPORT. What the keyboard unit does (spec 43_keyboard_encoder.md): the transition of one channel, the packet as a
function of the four events, and `KEY.ENCODE` itself, one lemma each. -/

namespace Sys2Proof.Machine

/-- After a transition the latch is the condition (R113, all four rows). -/
@[simp] theorem transition_latch (latch cond : Bool) : (transition latch cond).2 = cond := by
  cases latch <;> cases cond <;> rfl

/-- The new latch of a channel is its condition. -/
@[simp] theorem Channel.nextLatch_eq (c : Channel) (x : I16) (a b : Bool) (s : Regs) :
    c.nextLatch x a b s = c.condition x a b := transition_latch _ _

/-- The packet of four events: each channel's emission in its own range, zero elsewhere (R110, R114). -/
def packetOf (ea eb el er : KeyEvent) : Vector Byte kpLen :=
  putBytes (putBytes (putBytes (putBytes zeroPacket 0 (Channel.a.emission ea)) 2 (Channel.b.emission eb))
    4 (Channel.l.emission el)) 7 (Channel.r.emission er)

/-- The packet depends on the operands and the latches through the four events only. -/
theorem keyPacket_eq (x : I16) (a b : Bool) (s : Regs) :
    keyPacket x a b s =
      packetOf (Channel.a.event x a b s) (Channel.b.event x a b s) (Channel.l.event x a b s) (Channel.r.event x a b s) :=
  rfl

/-- Each channel's range of the packet holds its emission, left-aligned, then zero bytes (20_memory.md R33). -/
theorem range_packetOf (ea eb el er : KeyEvent) :
    Channel.a.range (packetOf ea eb el er) = (Channel.a.emission ea ++ [0#8, 0#8]).take 2 ∧
    Channel.b.range (packetOf ea eb el er) = (Channel.b.emission eb ++ [0#8, 0#8]).take 2 ∧
    Channel.l.range (packetOf ea eb el er) = (Channel.l.emission el ++ [0#8, 0#8, 0#8]).take 3 ∧
    Channel.r.range (packetOf ea eb el er) = (Channel.r.emission er ++ [0#8, 0#8, 0#8]).take 3 ∧
    (packetOf ea eb el er)[10] = 0#8 := by
  cases ea <;> cases eb <;> cases el <;> cases er <;> decide

/-- What `KEY.ENCODE` does: it always answers a next state (R124). -/
theorem execKeyEncode_eq (x : I16) (a b : Bool) (s : State) :
    execKeyEncode x a b s =
      .next (s.writeKeyPacket (keyPacket x a b s.toRegs) (Channel.a.condition x a b) (Channel.b.condition x a b)
        (Channel.l.condition x a b) (Channel.r.condition x a b)) := by
  simp [execKeyEncode]

end Sys2Proof.Machine
end

