-- ==== Sys2Proof/Laws/Kinematics.lean ====
section
/-! SUPPORT. What the kinematics unit does (spec 41_kinematics.md R85): the tick, one lane, and `KIN.UPDATE` itself, one
lemma each. -/

namespace Sys2Proof.Machine

/-- The tick conversion always answers, with the raw floor(t * 2^32 / 1000) (R77). -/
theorem tickSeconds_eq (rnd : Rounding) (t : U16) :
    tickSeconds rnd t = some (BitVec.ofInt 64 (tickRaw t)) := by
  have ht : t.toNat < 65536 := t.isLt
  have h1 : (fxInt (zext16 t)).toInt = t.toNat * 0x100000000 :=
    toInt_fxInt (by unfold zext16; omega) (by unfold zext16; omega)
  have h2 : (fxInt msPerS).toInt = 1000 * 0x100000000 := by decide
  have h3 : (t.toNat : Int) * 0x100000000 * 0x100000000 / (1000 * 0x100000000) = tickRaw t := by
    rw [Int.mul_ediv_mul_of_pos_left _ _ (by norm_num)]; rfl
  refine (fxDiv_eq_some (by rw [h2]; norm_num)).2 ?_
  rw [h1, h2, h3]
  exact ⟨by unfold tickRaw; constructor <;> omega, rfl⟩

/-- The raw of the tick: never negative, and below 65.536 (R77). -/
theorem tickRaw_bounds (t : U16) : 0 ≤ tickRaw t ∧ tickRaw t ≤ 281470681743 := by
  have ht : t.toNat < 65536 := t.isLt
  unfold tickRaw; omega

/-- The raw of the converted tick. -/
theorem toInt_tick (t : U16) : (BitVec.ofInt 64 (tickRaw t)).toInt = tickRaw t :=
  toInt_ofInt_of_fits (by have := tickRaw_bounds t; constructor <;> omega)

/-- A lane answers exactly when no value of its exact computation overflows, and then with that sample, velocity and
clamped displacement (R85). -/
theorem lane_eq_some {cfg : Config} (hm : 0 < cfg.maxAccel.toInt) {c pa v dt : FX} {r : LaneResult} :
    lane cfg c pa v dt = some r ↔
      (laneTrace cfg c.toInt pa.toInt v.toInt dt.toInt).Fits ∧
      r = { sample := c
            velocity := BitVec.ofInt 64 (laneTrace cfg c.toInt pa.toInt v.toInt dt.toInt).v1
            displacement := u8 (clamp127 (laneTrace cfg c.toInt pa.toInt v.toInt dt.toInt).output) } := by
  have h2 : (fxInt 2).toInt = 2 * 0x100000000 := by decide
  have half : ∀ q : Int, q * 0x100000000 / (2 * 0x100000000) = q / 2 := fun q =>
    Int.mul_ediv_mul_of_pos_left _ _ (by norm_num)
  unfold lane
  simp only [Option.bind_eq_bind, Option.bind_eq_some_iff, fxSub_eq_some, fxAdd_eq_some, fxMul_eq_some, fxDiv_eq_some hm,
    fxDiv_eq_some (show 0 < (fxInt 2).toInt by decide), Option.some.injEq, fxFloor, roundedQuotient_eq, fxRaw, fxOne_eq]
  constructor
  · rintro ⟨a, ⟨fa, rfl⟩, dv, ⟨fdv, rfl⟩, v1, ⟨fv1, rfl⟩, d1, ⟨fd1, rfl⟩, q, ⟨fq, rfl⟩, d2, ⟨fd2, rfl⟩, di, ⟨fdi, rfl⟩,
      o1, ⟨fo1, rfl⟩, o2, ⟨fo2, rfl⟩, o3, ⟨fo3, rfl⟩, rfl⟩
    simp only [toInt_ofInt_of_fits fa] at *
    simp only [toInt_ofInt_of_fits fdv] at *
    simp only [toInt_ofInt_of_fits fv1] at *
    simp only [toInt_ofInt_of_fits fd1] at *
    simp only [toInt_ofInt_of_fits fq] at *
    simp only [h2, half] at *
    simp only [toInt_ofInt_of_fits fd2] at *
    simp only [toInt_ofInt_of_fits fdi] at *
    simp only [toInt_ofInt_of_fits fo1] at *
    simp only [toInt_ofInt_of_fits fo2] at *
    simp only [toInt_ofInt_of_fits fo3] at *
    exact ⟨⟨fa, fdv, fv1, fd1, fq, fd2, fdi, fo1, fo2, fo3⟩, rfl⟩
  · rintro ⟨⟨fa, fdv, fv1, fd1, fq, fd2, fdi, fo1, fo2, fo3⟩, rfl⟩
    simp only [laneTrace] at *
    refine ⟨_, ⟨fa, rfl⟩, ?_⟩
    rw [toInt_ofInt_of_fits fa]
    refine ⟨_, ⟨fdv, rfl⟩, ?_⟩
    rw [toInt_ofInt_of_fits fdv]
    refine ⟨_, ⟨fv1, rfl⟩, ?_⟩
    rw [toInt_ofInt_of_fits fv1]
    refine ⟨_, ⟨fd1, rfl⟩, _, ⟨fq, rfl⟩, ?_⟩
    rw [toInt_ofInt_of_fits fd1, toInt_ofInt_of_fits fq, h2, half]
    refine ⟨_, ⟨fd2, rfl⟩, ?_⟩
    rw [toInt_ofInt_of_fits fd2]
    refine ⟨_, ⟨fdi, rfl⟩, ?_⟩
    rw [toInt_ofInt_of_fits fdi]
    refine ⟨_, ⟨fo1, rfl⟩, ?_⟩
    rw [toInt_ofInt_of_fits fo1]
    refine ⟨_, ⟨fo2, rfl⟩, ?_⟩
    rw [toInt_ofInt_of_fits fo2]
    refine ⟨_, ⟨fo3, rfl⟩, ?_⟩
    rw [toInt_ofInt_of_fits fo3]
    rfl

/-- The raw of the x sample (R85 step 2). -/
theorem toInt_sampleX (sx : I16) : (sampleX sx).toInt = sx.toInt * 0x100000000 := by
  have h1 := BitVec.le_toInt sx
  have h2 := BitVec.toInt_lt (x := sx)
  exact toInt_fxInt (by unfold sext16; norm_num at *; omega) (by unfold sext16; norm_num at *; omega)

/-- Applying `Y_SIGN` is multiplying by it (R85). -/
theorem applySign_eq (g : Sign) (n : Int) : applySign g n = ySignValue g * n := by
  cases g <;> simp [applySign, ySignValue]

/-- The raw of the y sample, `Y_SIGN` applied (R89). -/
theorem toInt_sampleY (c : Config) (sy : I16) :
    (sampleY c sy).toInt = ySignValue c.ySign * sy.toInt * 0x100000000 := by
  rw [← applySign_eq]
  have h1 := BitVec.le_toInt sy
  have h2 := BitVec.toInt_lt (x := sy)
  have h : -32768 ≤ applySign c.ySign sy.toInt ∧ applySign c.ySign sy.toInt ≤ 32768 := by
    cases c.ySign <;> simp only [applySign] <;> norm_num at * <;> omega
  exact toInt_fxInt (by unfold sext16; omega) (by unfold sext16; omega)

/-- What `KIN.UPDATE` can do when it answers a next state (R85): no value of either lane overflowed, and the six
registers of its row hold the lanes' results. -/
theorem execKinUpdate_next {sx sy : I16} {tick : U16} {s t : State} (h : execKinUpdate sx sy tick s = .next t) :
    0 < s.cfg.maxAccel.toInt ∧ (traceX sx tick s).Fits ∧ (traceY sy tick s).Fits ∧
      t = s.writeKinematics
        { sample := sampleX sx, velocity := BitVec.ofInt 64 (traceX sx tick s).v1,
          displacement := u8 (clamp127 (traceX sx tick s).output) }
        { sample := sampleY s.cfg sy, velocity := BitVec.ofInt 64 (traceY sy tick s).v1,
          displacement := u8 (clamp127 (traceY sy tick s).output) } := by
  unfold execKinUpdate at h
  split at h
  · rename_i hm
    have hm : 0 < s.cfg.maxAccel.toInt := by simpa [Config.maxAccelPositive] using hm
    split at h
    · rename_i x y hk
      simp only [kinematics, tickSeconds_eq, Option.bind_eq_bind, Option.bind_some, Option.bind_eq_some_iff,
        lane_eq_some hm, toInt_sampleX, toInt_sampleY, toInt_tick, Option.some.injEq, Prod.mk.injEq] at hk
      obtain ⟨_, ⟨fx, rfl⟩, _, ⟨fy, rfl⟩, rfl, rfl⟩ := hk
      cases h
      exact ⟨hm, fx, fy, rfl⟩
    · cases h
  · cases h

end Sys2Proof.Machine
end

