-- ==== Sys2Proof/Laws/PerInstr.lean ====
section
/-! SUPPORT. Families of laws made per instruction (LAWS.json): one lemma for each constructor of `Instr`. -/

namespace Sys2Proof.Laws

/-- An instruction's word selects its own row of the opcode map (30_encoding.md R50): its `OP` and its must-be-zero bits
are the row's, whatever its operands. -/
def EncodingSelectsRow.Statement (i : Instr) : Prop := i.row.selects (encode i) = true

theorem EncodingSelectsRow.kinUpdate (sx sy : I16) (tickMs : U16) :
    EncodingSelectsRow.Statement (.kinUpdate sx sy tickMs) := by
  simp only [EncodingSelectsRow.Statement, OpcodeRow.selects, beq_iff_eq]
  apply BitVec.eq_of_getLsbD_eq
  intro k hk
  interval_cases k <;> simp [encode, getElem_placeAt, Instr.row, rowKinUpdate]

theorem EncodingSelectsRow.mouseEncode (dx dy : I8) (a b : Bool) :
    EncodingSelectsRow.Statement (.mouseEncode dx dy a b) := by
  simp only [EncodingSelectsRow.Statement, OpcodeRow.selects, beq_iff_eq]
  apply BitVec.eq_of_getLsbD_eq
  intro k hk
  interval_cases k <;> simp [encode, getElem_placeAt, Instr.row, rowMouseEncode]

theorem EncodingSelectsRow.keyEncode (tiltX : I16) (a b : Bool) :
    EncodingSelectsRow.Statement (.keyEncode tiltX a b) := by
  simp only [EncodingSelectsRow.Statement, OpcodeRow.selects, beq_iff_eq]
  apply BitVec.eq_of_getLsbD_eq
  intro k hk
  interval_cases k <;> simp [encode, getElem_placeAt, Instr.row, rowKeyEncode]

end Sys2Proof.Laws
end

