-- ==== Sys2Proof/Laws/Step.lean ====
section
/-! SUPPORT. What a command and a step can do, said once (spec 00_scope.md R9): every invariant is derived from these. -/

namespace Sys2Proof.Machine

/-- A command that answers a next state changed only the registers of its row (10_state.md R22). -/
theorem exec_next {i : Instr} {s t : State} (h : exec i s = .next t) :
    (∃ sx sy tick x y, i = .kinUpdate sx sy tick ∧ t = s.writeKinematics x y) ∨
    (∃ dx dy a b, i = .mouseEncode dx dy a b ∧ t = s.writeMousePacket (mouseFrame dx dy a b)) ∨
    (∃ x a b, i = .keyEncode x a b ∧
      t = s.writeKeyPacket (keyPacket x a b s.toRegs) (Channel.a.condition x a b) (Channel.b.condition x a b)
        (Channel.l.condition x a b) (Channel.r.condition x a b)) := by
  cases i with
  | kinUpdate sx sy tick => exact .inl ⟨sx, sy, tick, _, _, rfl, (execKinUpdate_next h).2.2.2⟩
  | mouseEncode dx dy a b => exact .inr (.inl ⟨dx, dy, a, b, rfl, by cases h; rfl⟩)
  | keyEncode x a b =>
    refine .inr (.inr ⟨x, a, b, rfl, ?_⟩)
    have h := (execKeyEncode_eq x a b s).symm.trans h
    cases h; rfl

/-- What a step does when it answers a next state: nothing with no host move pending, a decoded command, or reset. -/
theorem step_next {s t : State} (h : step s = .next t) :
    (s.inputs = [] ∧ t = s) ∨
    (∃ w rest i, s.inputs = .command w :: rest ∧ decode w = .instr i ∧ exec i (s.withInputs rest) = .next t) ∨
    (∃ rest, s.inputs = .reset :: rest ∧ t = (s.withInputs rest).resetRegs) := by
  unfold step at h
  split at h
  · rename_i hi
    cases h
    exact .inl ⟨hi, rfl⟩
  · rename_i w rest hi
    unfold acceptCommand at h
    split at h
    · rename_i i hd
      exact .inr (.inl ⟨w, rest, i, hi, hd, h⟩)
    · cases h
  · rename_i rest hi
    cases h
    exact .inr (.inr ⟨rest, hi, rfl⟩)

end Sys2Proof.Machine
end

