-- ==== Sys2Proof/Tests/Slice0.lean ====
section
/-! SUPPORT. Tests. Expected values are those of spec 95_test_vectors.md (the vector is named in each docstring) or are
worked out by hand from the rule named there. The theorems `witness_…` show, for each statement with hypotheses, concrete
values that meet them together. -/

namespace Sys2Proof.Tests

open Sys2Proof Sys2Proof.Machine

/-! ### Helpers -/

/-- The configuration T0 of 95_test_vectors.md (every latency 1). -/
def t0 : Config := ⟨.plus, 0x100000000#64, 0x40000000000#64, 0x7F00000000#64, .floor, 1, 1, 1, 1⟩

/-- The configuration T1: T0 with `Y_SIGN` = -1. -/
def t1 : Config := { t0 with ySign := .minus }

/-- An ill-formed configuration: `MAX_ACCEL` zero. -/
def badCfg : Config := { t0 with maxAccel := 0#64 }

/-- The all-zero registers under a configuration, with the host's moves given. -/
def start (c : Config) (inputs : List HostMove) : State := { toRegs := Regs.zero, cfg := c, inputs := inputs }

/-- The registers of a next state. -/
def regsOf : Host.Outcome State Fault Refusal → Option Regs
  | .next t => some t.toRegs
  | .fault _ => none
  | .refused _ => none

/-- The last state of vector K12 before it overflows: `PAX` = -32768, `VX` near 2.79 x 10^7. -/
def nearOverflow : State :=
  { start t0 [] with pax := 0xFFFF800000000000#64, vx := 0x01A9F872B1E92E17#64 }

/-- A state of the reachable form that is not the reset state: A and left held, a framed mouse packet. -/
def midway : State :=
  { start t0 [.command 0x02030000007F0080#64, .reset] with
    pax := 0x500000000#64, vx := 0x500000000#64, dx := 18#8, dy := 129#8, ea := true, el := true,
    mp := #v[0x6C#8, 0x05#8, 0x3D#8] }

/-! ### Decoding and encoding: words written out field by field from 30_encoding.md -/

/-- E1: `OP` 0x01, zero, `tick_ms` 1000, `sy` -200, `sx` 100. -/
theorem test_decode_kinUpdate :
    decode (0x01#8 ++ 0x00#8 ++ 0x03E8#16 ++ 0xFF38#16 ++ 0x0064#16) =
      .instr (.kinUpdate 100#16 (BitVec.ofInt 16 (-200)) 1000#16) := by decide

/-- E4: `OP` 0x02, zero, `b` 0, `a` 1, zero, zero, `dy` -3, zero, `dx` 5. -/
theorem test_decode_mouseEncode :
    decode (0x02#8 ++ 0b000000#6 ++ 0b0#1 ++ 0b1#1 ++ 0x0000#16 ++ 0x00#8 ++ 0xFD#8 ++ 0x00#8 ++ 0x05#8) =
      .instr (.mouseEncode 5#8 (BitVec.ofInt 8 (-3)) true false) := by decide

/-- E7 with `b` = 0: `OP` 0x03, zero, `b` 0, `a` 1, zero, `tilt_x` 301. -/
theorem test_decode_keyEncode :
    decode (0x03#8 ++ 0b000000#6 ++ 0b0#1 ++ 0b1#1 ++ 0x00000000#32 ++ 0x012D#16) =
      .instr (.keyEncode 301#16 true false) := by decide

/-- E5, written by the encoder. -/
theorem test_encode_mouseEncode :
    encode (.mouseEncode (BitVec.ofInt 8 (-128)) 127#8 true true) = 0x02030000007F0080#64 := by decide

/-- E2 and E6, written by the encoder. -/
theorem test_encode_kinUpdate_keyEncode :
    encode (.kinUpdate 32767#16 (BitVec.ofInt 16 (-32768)) 65535#16) = 0x0100FFFF80007FFF#64 ∧
    encode (.keyEncode (BitVec.ofInt 16 (-500)) false false) = 0x030000000000FE0C#64 := by decide

/-- The host's reading of the table words E4 and E11, the second illegal. -/
theorem test_decodeTableWord :
    decodeTableWord 64 0x0201000000FD0005 = some (.mouseEncode 5#8 (BitVec.ofInt 8 (-3)) true false) ∧
    decodeTableWord 64 0x0200000000FDFFFB = none := by decide

/-! ### Well-formedness: each check refuses an ill-formed term -/

/-- R21: `MAX_ACCEL` zero, and negative, are refused; each latency zero is refused (R158). -/
theorem test_wf_config :
    t0.wf = true ∧ badCfg.wf = false ∧ ({ t0 with maxAccel := 0x8000000000000000#64 } : Config).wf = false ∧
    ({ t0 with latKin := 0 } : Config).wf = false ∧ ({ t0 with latMouse := 0 } : Config).wf = false ∧
    ({ t0 with latKey := 0 } : Config).wf = false ∧ ({ t0 with latIllegal := 0 } : Config).wf = false := by decide

/-- R46 to R48: each must-be-zero field of each format, with one bit set, makes the word ill-formed. -/
theorem test_wf_words :
    CmdWord.wf 0x010003E8FF380064#64 = true ∧ CmdWord.wf 0x0103000000000000#64 = false ∧
    CmdWord.wf 0x0180000000000000#64 = false ∧
    CmdWord.wf 0x0203000000FD0005#64 = true ∧ CmdWord.wf 0x0204000000000000#64 = false ∧
    CmdWord.wf 0x0200000100000000#64 = false ∧ CmdWord.wf 0x0200000001000000#64 = false ∧
    CmdWord.wf 0x0200000000000100#64 = false ∧
    CmdWord.wf 0x030300000000FFFF#64 = true ∧ CmdWord.wf 0x0304000000000000#64 = false ∧
    CmdWord.wf 0x0300000000010000#64 = false ∧ CmdWord.wf 0x0300800000000000#64 = false ∧
    CmdWord.wf 0x0400000000000000#64 = false := by decide

/-- R49: the operand ranges at their edges. -/
theorem test_wf_lines :
    (AsmLine.kinUpdate (-32768) 32767 65535).wf = true ∧ (AsmLine.kinUpdate (-32769) 0 0).wf = false ∧
    (AsmLine.kinUpdate 0 32768 0).wf = false ∧ (AsmLine.kinUpdate 0 0 65536).wf = false ∧
    (AsmLine.kinUpdate 0 0 (-1)).wf = false ∧
    (AsmLine.mouseEncode (.int (-128)) .portDY true true).wf = true ∧
    (AsmLine.mouseEncode (.int 128) .portDY true true).wf = false ∧
    (AsmLine.mouseEncode .portDX (.int (-129)) true true).wf = false ∧
    (AsmLine.keyEncode 32768 false false).wf = false := by decide

/-! ### Fixed-point primitives (95_test_vectors.md 2.2) -/

/-- F4, F9, F19, F20. -/
theorem test_fxMul :
    fxMul .floor 0xFFFFFFFFFFFFFFFF#64 0x80000000#64 = some 0xFFFFFFFFFFFFFFFF#64 ∧
    fxMul .floor 0xFFFFFFFFFD70A3D8#64 0x28F5C28#64 = some 0xFFFFFFFFFFF97247#64 ∧
    fxMul .floor 0xB50500000000#64 0xB50500000000#64 = none ∧
    fxMul .floor 0xFFFF000000000000#64 0x800000000000#64 = some 0x8000000000000000#64 := by decide

/-- F11, F16, F17. -/
theorem test_fxDiv :
    fxDiv .floor 0xFFFFFFFF00000000#64 0x300000000#64 = some 0xFFFFFFFFAAAAAAAA#64 ∧
    fxDiv .floor 0x40000000#64 1#64 = some 0x4000000000000000#64 ∧
    fxDiv .floor 0x80000000#64 1#64 = none := by decide

/-- F22, F23, F24, F30, F32, F2. -/
theorem test_fxRest :
    fxAdd 0x7FFFFFFFFFFFFFFF#64 1#64 = none ∧
    fxAdd 0x7FFFFFFFFFFFFFFF#64 0xFFFFFFFFFFFFFFFF#64 = some 0x7FFFFFFFFFFFFFFE#64 ∧
    fxSub 0x8000000000000000#64 1#64 = none ∧ fxFloor .floor 0xFFFFFFFEFFFFFFFF#64 = -2 ∧
    clamp127 (-128) = -127 ∧ clamp127 128 = 127 ∧ fxInt (-32768) = 0xFFFF800000000000#64 := by decide

/-! ### One step of each instruction -/

/-- K1 row 1: `KIN.UPDATE 100, -200, 1000` from reset under T0 gives `DX` = 18, `DY` = -38. -/
theorem test_kinUpdate_K1 :
    regsOf (exec (.kinUpdate 100#16 (BitVec.ofInt 16 (-200)) 1000#16) (start t0 [])) =
      some { Regs.zero with pax := 0x6400000000#64, pay := 0xFFFFFF3800000000#64, vx := 0x6400000000#64,
                            vy := 0xFFFFFF3800000000#64, dx := 18#8, dy := BitVec.ofInt 8 (-38) } := by decide

/-- K6: the extreme sample with `Y_SIGN` = -1 is held exactly, and the displacement saturates. -/
theorem test_kinUpdate_K6 :
    regsOf (exec (.kinUpdate 0#16 (BitVec.ofInt 16 (-32768)) 1000#16) (start t1 [])) =
      some { Regs.zero with pay := 0x800000000000#64, vy := 0x800000000000#64, dy := 127#8 } := by decide

/-- M2 (the source's S1): `MOUSE.ENCODE 5, -3, 1, 0` gives `[6C 05 3D]` and changes nothing else. -/
theorem test_mouseEncode_M2 :
    regsOf (exec (.mouseEncode 5#8 (BitVec.ofInt 8 (-3)) true false) midway) =
      some { midway.toRegs with mp := #v[0x6C#8, 0x05#8, 0x3D#8] } := by decide

/-- M11: `MOUSE.ENCODE -128, 127, 1, 0` gives `[66 00 3F]`. -/
theorem test_mouseEncode_M11 :
    (regsOf (exec (.mouseEncode (BitVec.ofInt 8 (-128)) 127#8 true false) midway)).map Regs.mp =
      some #v[0x66#8, 0x00#8, 0x3F#8] := by decide

/-- Q3 row 2: from A, B and left held, `KEY.ENCODE 500, 0, 0` gives the 9-byte packet. -/
theorem test_keyEncode_Q3 :
    regsOf (exec (.keyEncode 500#16 false false) { start t0 [] with ea := true, eb := true, el := true }) =
      some { Regs.zero with
        er := true
        kp := #v[0xF0#8, 0x1A#8, 0xF0#8, 0x22#8, 0xE0#8, 0xF0#8, 0x6B#8, 0xE0#8, 0x74#8, 0x00#8, 0x00#8] } := by
  decide

/-- Q1 rows 2 and 3: -301 makes left, -300 releases it. -/
theorem test_keyEncode_Q1 :
    (regsOf (exec (.keyEncode (BitVec.ofInt 16 (-301)) false false) (start t0 []))).map (fun r => kstream r.kp) =
      some [0xE0#8, 0x6B#8] ∧
    (regsOf (exec (.keyEncode (BitVec.ofInt 16 (-300)) false false) { start t0 [] with el := true })).map
      (fun r => kstream r.kp) = some [0xE0#8, 0xF0#8, 0x6B#8] := by decide

/-! ### The step, the ports, the assembler -/

/-- A presented word runs as the next step: E5 in a state with another move pending. -/
theorem test_withFetchWord :
    (regsOf (step ((start t0 [.reset]).withFetchWord 64 0x02030000007F0080))).map Regs.mp =
      some #v[0x76#8, 0x00#8, 0x3F#8] := by decide

/-- The reset move clears every register (R26); the fault of K12; the refusals of an illegal word and of an ill-formed
configuration. -/
theorem test_step_outcomes :
    regsOf (step { midway with inputs := [.reset] }) = some Regs.zero ∧
    regsOf (step (nearOverflow.withFetchWord 64 0x0100FFFF00007FFF)) = none ∧
    regsOf (step ((start t0 []).withFetchWord 64 0)) = none ∧
    regsOf (step ((start badCfg []).withFetchWord 64 0x0100000000000000)) = none := by decide

/-- 20_memory.md R35: byte i at bits 8i+7..8i, on the frame `[6C 05 3D]` and the packet of Q1 row 2. -/
theorem test_ports :
    ({ Regs.zero with
        mp := #v[0x6C#8, 0x05#8, 0x3D#8]
        kp := #v[0#8, 0#8, 0#8, 0#8, 0xE0#8, 0x6B#8, 0#8, 0#8, 0#8, 0#8, 0#8] } : Regs).ports =
      { dx := 0#8, dy := 0#8, mp := 0x3D056C#24, kp := 0x6BE000000000#88 } := by decide

/-- R54: a line with a comment, a line with ports, hexadecimal, `RESET`, an operand out of range, a malformed line. -/
theorem test_assembleText :
    assembleText midway.ports "  KIN.UPDATE 100, -200, 1000 ; E1".toList = .move (.command 0x010003E8FF380064#64) ∧
    assembleText midway.ports "MOUSE.ENCODE DX, DY, 1, 0".toList = .move (.command 0x0201000000810012#64) ∧
    assembleText midway.ports "MOUSE.ENCODE DY, 3, 0, 0".toList = .move (.command 0x0200000000030081#64) ∧
    assembleText midway.ports "KEY.ENCODE 0x12D, 1, 1".toList = .move (.command 0x030300000000012D#64) ∧
    assembleText midway.ports "RESET".toList = .move .reset ∧
    assembleText midway.ports "; a comment".toList = .nothing ∧
    assembleText midway.ports "MOUSE.ENCODE 128, 0, 0, 0".toList = .outOfRange ∧
    assembleText midway.ports "KEY.ENCODE 1, 1".toList = .syntaxError := by decide

/-! ### Witnesses: values that meet the hypotheses of each statement together -/

/-- An idle block with the reset registers. -/
def idle (c : Config) : Block := { cfg := c, regs := some Regs.zero, flight := none }

/-- An edge at which the word is offered. -/
def offer (w : CmdWord) : Pins := ⟨false, true, w⟩

/-- An edge at which nothing is offered. -/
def quiet : Pins := ⟨false, false, 0#64⟩

/-- `midway` with the registers that `KIN.UPDATE` reads as there and the others zero. -/
def midwayKin : State := { midway with ea := false, el := false, mp := #v[0#8, 0#8, 0#8], inputs := [] }

/-- `midway` with the latches as there and the other registers zero. -/
def midwayKey : State := { start t0 [] with ea := true, el := true }

theorem midway_inv : Inv midway.toRegs where
  pax_integer := ⟨5, by decide⟩
  pay_integer := ⟨0, by decide⟩
  tilt_exclusive := by decide
  dx_clamped := by decide
  dy_clamped := by decide
  mp_framed := .inr (by decide)
  kp_spare_zero := by decide

theorem fits_start : (traceX 0#16 1000#16 (start t0 [])).Fits ∧ (traceY 0#16 1000#16 (start t0 [])).Fits := by
  constructor <;> constructor <;> decide

theorem not_fits_nearOverflow : ¬ (traceX 32767#16 65535#16 nearOverflow).Fits := fun h => absurd h.dist (by decide)

/-- `midway` has the constant-tick form of tick 1000: `VX` is 5, its sample, times one second. -/
theorem midway_tickForm : TickForm 1000#16 midway.toRegs :=
  ⟨⟨5, by decide⟩, 0, by decide⟩

/-- In `midway` a make of channel A is out and not its break. -/
theorem midway_paired : Paired .a [.make] midway.toRegs := ⟨by decide, by decide⟩

theorem witness_DecodeEncodeAgree :
    decode 0x0201000000FD0005#64 = .instr (.mouseEncode 5#8 (BitVec.ofInt 8 (-3)) true false) := by decide

theorem witness_IllegalWordsChangeNothing :
    (idle t0).cfg.wf = true ∧ (idle t0).flight = none ∧ (offer 0#64).rst = false ∧ (offer 0#64).cmdValid = true ∧
    (offer 0#64).cmd.wf = false ∧ (∀ q ∈ [quiet], q.rst = false) ∧ [quiet].length = (idle t0).cfg.latIllegal := by
  decide

theorem witness_StepRunsDecodedCommand :
    (start t0 [.command 0x0300000000000000#64]).inputs = .command 0x0300000000000000#64 :: [] ∧
    decode 0x0300000000000000#64 = .instr (.keyEncode 0#16 false false) := by decide

theorem witness_ResetZeroesEveryRegister :
    ({ midway with inputs := [.reset] } : State).inputs = .reset :: [] ∧
    ∃ t, step { midway with inputs := [.reset] } = .next t := ⟨rfl, _, rfl⟩

theorem witness_IdleStepHoldsEverything : (start t0 []).inputs = [] := rfl

theorem witness_StepStopsForNamedReasons :
    step (nearOverflow.withFetchWord 64 0x0100FFFF00007FFF) = .fault .fxOverflow ∧
    step ((start t0 []).withFetchWord 64 0) = .refused (.illegalWord (.unknownOp 0#8)) ∧
    step ((start badCfg []).withFetchWord 64 0x0100000000000000) = .refused .illFormedConfig ∧
    ((start t0 []).withFetchWord 64 0).inputs = .command 0#64 :: [] ∧ CmdWord.wf 0#64 = false ∧
    decode 0x0100FFFF00007FFF#64 = .instr (.kinUpdate 32767#16 0#16 65535#16) ∧ badCfg.maxAccel.toInt ≤ 0 ∧
    0 < nearOverflow.cfg.maxAccel.toInt ∧
    ¬ ((traceX 32767#16 65535#16 nearOverflow).Fits ∧ (traceY 0#16 65535#16 nearOverflow).Fits) :=
  ⟨rfl, rfl, rfl, rfl, by decide, by decide, by decide, by decide, fun h => not_fits_nearOverflow h.1⟩

theorem witness_CommandsReadAndWriteTheirRow :
    (∃ t, exec (.kinUpdate 7#16 3#16 1000#16) midway = .next t) ∧
    (∃ t, exec (.mouseEncode 7#8 3#8 true false) midway = .next t) ∧
    (∃ t, exec (.keyEncode 7#16 true false) midway = .next t) ∧
    midwayKin ≠ midway ∧ midwayKin.cfg = midway.cfg ∧ midwayKin.pax = midway.pax ∧ midwayKin.pay = midway.pay ∧
    midwayKin.vx = midway.vx ∧ midwayKin.vy = midway.vy ∧
    midwayKey ≠ midway ∧ midwayKey.ea = midway.ea ∧ midwayKey.eb = midway.eb ∧ midwayKey.el = midway.el ∧
    midwayKey.er = midway.er :=
  ⟨⟨_, rfl⟩, ⟨_, rfl⟩, ⟨_, rfl⟩, by decide⟩

theorem witness_ConfigurationNeverChanges : ∃ t, step midway = .next t := ⟨_, rfl⟩

theorem witness_EveryStepKeepsTheReachableForm : Inv midway.toRegs ∧ ∃ t, step midway = .next t :=
  ⟨midway_inv, _, rfl⟩

theorem witness_UnitsCommute : (Instr.kinUpdate 7#16 3#16 1000#16).opcode ≠ (Instr.keyEncode 7#16 true false).opcode := by
  decide

theorem witness_MultiplyRoundsDown :
    (∃ x, fxMul .floor 0xFFFFFFFFFFFFFFFF#64 0x80000000#64 = some x) ∧
    fxMul .floor 0xB50500000000#64 0xB50500000000#64 = none := ⟨⟨_, rfl⟩, rfl⟩

theorem witness_DivideRoundsDown :
    0 < (1#64 : FX).toInt ∧ (∃ x, fxDiv .floor 0x40000000#64 1#64 = some x) ∧
    fxDiv .floor 0x80000000#64 1#64 = none ∧ t0.wf = true := ⟨by decide, ⟨_, rfl⟩, rfl, by decide⟩

theorem witness_ClampSaturates :
    ((-128 : Int) < -127 ∧ (128 : Int) > 127) ∧ ((-127 : Int) ≤ -127 ∧ (-127 : Int) ≤ 127) ∧
    ((-127 : Int) ≤ 127 ∧ (127 : Int) ≤ 127) := by decide

theorem witness_IntegerTimesFixedIsExact :
    (-2 ^ 31 ≤ (-2147483648 : Int) ∧ (-2147483648 : Int) ≤ 2 ^ 31 - 1 ∧
      fitsFX (-2147483648 * (0x100000000#64 : FX).toInt)) ∧
    (-2 ^ 31 ≤ (2147483647 : Int) ∧ (2147483647 : Int) ≤ 2 ^ 31 - 1 ∧
      ¬ fitsFX (2147483647 * (0x200000000#64 : FX).toInt)) := by decide

theorem witness_PrimitivesAreMonotone :
    (0xFFFFFFFFFFFFFFFF#64 : FX).toInt ≤ (3#64 : FX).toInt ∧ 0 ≤ (0x80000000#64 : FX).toInt ∧
    (∃ x, fxMul .floor 0xFFFFFFFFFFFFFFFF#64 0x80000000#64 = some x) ∧ (∃ x, fxMul .floor 3#64 0x80000000#64 = some x) ∧
    (∃ x, fxDiv .floor 0xFFFFFFFFFFFFFFFF#64 0x80000000#64 = some x) ∧ (∃ x, fxDiv .floor 3#64 0x80000000#64 = some x) ∧
    (-128 : Int) ≤ 128 :=
  ⟨by decide, by decide, ⟨_, rfl⟩, ⟨_, rfl⟩, ⟨_, rfl⟩, ⟨_, rfl⟩, by decide⟩

theorem witness_KinUpdateIsTheLaneComputation :
    (0 < (start t0 []).cfg.maxAccel.toInt ∧ (traceX 0#16 1000#16 (start t0 [])).Fits ∧
      (traceY 0#16 1000#16 (start t0 [])).Fits) ∧
    0 < nearOverflow.cfg.maxAccel.toInt ∧
    ¬ ((traceX 32767#16 65535#16 nearOverflow).Fits ∧ (traceY 0#16 65535#16 nearOverflow).Fits) :=
  ⟨⟨by decide, fits_start⟩, by decide, fun h => not_fits_nearOverflow h.1⟩

theorem witness_KinUpdateRefusesIllFormedConfig : (start badCfg []).cfg.maxAccel.toInt ≤ 0 := by decide

theorem witness_LanesAreIndependent :
    (midwayKin.cfg = midway.cfg ∧ midwayKin.pax = midway.pax ∧ midwayKin.vx = midway.vx ∧
      (∃ t, exec (.kinUpdate 7#16 3#16 1000#16) midway = .next t) ∧
      ∃ t, exec (.kinUpdate 7#16 9#16 1000#16) midwayKin = .next t) ∧
    (midwayKin.pay = midway.pay ∧ midwayKin.vy = midway.vy ∧
      ∃ t, exec (.kinUpdate 9#16 3#16 1000#16) midwayKin = .next t) ∧
    (0 < nearOverflow.cfg.maxAccel.toInt ∧ ¬ (traceX 32767#16 65535#16 nearOverflow).Fits) ∧
    ((start t1 []).pax = (start t1 []).pay ∧ (start t1 []).vx = (start t1 []).vy ∧
      (BitVec.ofInt 16 (-3)).toInt = ySignValue (start t1 []).cfg.ySign * (3#16 : I16).toInt ∧
      (∃ t, exec (.kinUpdate 7#16 3#16 1000#16) (start t1 []) = .next t) ∧
      ∃ t, exec (.kinUpdate (BitVec.ofInt 16 (-3)) 9#16 1000#16) (start t1 []) = .next t) :=
  ⟨⟨rfl, rfl, rfl, ⟨_, rfl⟩, _, rfl⟩, ⟨rfl, rfl, _, rfl⟩, ⟨by decide, not_fits_nearOverflow⟩,
   rfl, rfl, by decide, ⟨_, rfl⟩, _, rfl⟩

theorem witness_DisplacementsSaturate :
    ∃ t, exec (.kinUpdate 1000#16 (BitVec.ofInt 16 (-1000)) 1000#16) (start t0 []) = .next t := ⟨_, rfl⟩

theorem witness_ZeroTickStoresTheSampleOnly : 0 < midway.cfg.maxAccel.toInt ∧ Inv midway.toRegs :=
  ⟨by decide, midway_inv⟩

theorem witness_ZeroInputStaysZero :
    0 < (start t0 []).cfg.maxAccel.toInt ∧ (start t0 []).pax = 0#64 ∧ (start t0 []).pay = 0#64 ∧
    (start t0 []).vx = 0#64 ∧ (start t0 []).vy = 0#64 := by decide

theorem witness_ConstantTickTelescopes :
    (start t0 []).toRegs = Regs.zero ∧
    [Instr.kinUpdate 5#16 7#16 1000#16, .mouseEncode 1#8 1#8 true true].all (hasTick 1000#16) = true ∧
    [Instr.kinUpdate 9#16 2#16 1000#16, .kinUpdate 5#16 7#16 1000#16].all (hasTick 1000#16) = true ∧
    lastSample (0#16, 0#16) [Instr.kinUpdate 9#16 2#16 1000#16, .kinUpdate 5#16 7#16 1000#16] =
      lastSample (0#16, 0#16) [Instr.kinUpdate 5#16 7#16 1000#16, .mouseEncode 1#8 1#8 true true] ∧
    (∃ t u, execAll [.kinUpdate 5#16 7#16 1000#16, .mouseEncode 1#8 1#8 true true] (start t0 []) = .next t ∧
      exec (.kinUpdate 11#16 6#16 1000#16) t = .next u) ∧
    ∃ t u, execAll [.kinUpdate 9#16 2#16 1000#16, .kinUpdate 5#16 7#16 1000#16] (start t0 []) = .next t ∧
      exec (.kinUpdate 11#16 6#16 1000#16) t = .next u :=
  ⟨rfl, by decide, by decide, by decide, ⟨_, _, rfl, rfl⟩, _, _, rfl, rfl⟩

theorem witness_ConstantTickReturnsToZero :
    (start t0 []).toRegs = Regs.zero ∧
    [Instr.kinUpdate 5#16 7#16 16#16, .kinUpdate 0#16 0#16 16#16].all (hasTick 16#16) = true ∧
    lastSample (0#16, 0#16) [Instr.kinUpdate 5#16 7#16 16#16, .kinUpdate 0#16 0#16 16#16] = (0#16, 0#16) ∧
    ∃ t u, execAll [.kinUpdate 5#16 7#16 16#16, .kinUpdate 0#16 0#16 16#16] (start t0 []) = .next t ∧
      exec (.kinUpdate 0#16 0#16 16#16) t = .next u := ⟨rfl, by decide, by decide, _, _, rfl, rfl⟩

theorem witness_ConstantTickNeverOverflows :
    (start t0 []).toRegs = Regs.zero ∧ 0 < (start t0 []).cfg.maxAccel.toInt ∧
    [Instr.kinUpdate 5#16 7#16 16#16].all (hasTick 16#16) = true ∧
    (1 : ℚ) = |((start t0 []).cfg.scalingFactor.toInt : ℚ)| / 2 ^ 32 ∧
    (1024 : ℚ) = |((start t0 []).cfg.maxAccel.toInt : ℚ)| / 2 ^ 32 ∧
    (127 : ℚ) = |((start t0 []).cfg.maxMovementUnit.toInt : ℚ)| / 2 ^ 32 ∧
    2 ^ 29 * (1 : ℚ) + 1 < 2 ^ 31 ∧ (2 ^ 29 * (1 : ℚ) + 1) / 1024 + 1 < 2 ^ 31 ∧
    ((2 ^ 29 * (1 : ℚ) + 1) / 1024 + 1) * 127 + 1 < 2 ^ 31 := by
  have hs : (start t0 []).cfg.scalingFactor.toInt = 4294967296 := by decide
  have hm : (start t0 []).cfg.maxAccel.toInt = 4398046511104 := by decide
  have hu : (start t0 []).cfg.maxMovementUnit.toInt = 545460846592 := by decide
  rw [hs, hm, hu]
  refine ⟨rfl, by norm_num, by decide, ?_, ?_, ?_, ?_, ?_, ?_⟩ <;> norm_num

theorem witness_EveryStepKeepsTheConstantTickForm :
    TickForm 1000#16 midway.toRegs ∧ hasTick 1000#16 (.kinUpdate 32767#16 0x8000#16 1000#16) = true ∧
    (∀ w rest i, midway.inputs = .command w :: rest → decode w = .instr i → hasTick 1000#16 i = true) ∧
    (∃ t, step midway = .next t) ∧ 0 < midway.cfg.maxAccel.toInt ∧
    (1 : ℚ) = |(midway.cfg.scalingFactor.toInt : ℚ)| / 2 ^ 32 ∧
    (1024 : ℚ) = |(midway.cfg.maxAccel.toInt : ℚ)| / 2 ^ 32 ∧
    (127 : ℚ) = |(midway.cfg.maxMovementUnit.toInt : ℚ)| / 2 ^ 32 ∧
    2 ^ 29 * (1 : ℚ) + 1 < 2 ^ 31 ∧ (2 ^ 29 * (1 : ℚ) + 1) / 1024 + 1 < 2 ^ 31 ∧
    ((2 ^ 29 * (1 : ℚ) + 1) / 1024 + 1) * 127 + 1 < 2 ^ 31 := by
  refine ⟨midway_tickForm, by decide, ?_, ⟨_, rfl⟩, by decide, witness_ConstantTickNeverOverflows.2.2.2⟩
  intro w rest i h hd
  cases h
  have e : decode 0x02030000007F0080#64 = .instr (.mouseEncode 128#8 127#8 true true) := by decide
  cases e.symm.trans hd
  rfl

theorem witness_VaryingTickLeavesVelocity :
    (start t0 []).toRegs = Regs.zero ∧ ∃ t u,
      execAll [.kinUpdate 300#16 0#16 500#16, .kinUpdate 0#16 0#16 250#16, .kinUpdate 0#16 0#16 500#16] (start t0 []) =
        .next t ∧
      execAll ([500#16].map (.kinUpdate 0#16 0#16)) t = .next u := ⟨rfl, _, _, rfl, rfl⟩

theorem witness_MouseFrameRecoversOperands :
    ∃ t, exec (.mouseEncode 128#8 127#8 true false) midway = .next t := ⟨_, rfl⟩

theorem witness_MouseFramesAreTheFramedTriples :
    let m : Vector Byte 3 := #v[0x7F#8, 0x3F#8, 0x00#8]
    0x40 ≤ m[0].toNat ∧ m[0].toNat ≤ 0x7F ∧ m[1].toNat ≤ 0x3F ∧ m[2].toNat ≤ 0x3F := by decide

theorem witness_ThresholdsAreStrict :
    (-300 ≤ (BitVec.ofInt 16 (-300)).toInt ∧ (300#16 : I16).toInt ≤ 300) ∧
    (∃ t u, exec (.keyEncode (BitVec.ofInt 16 (-300)) true false) midway = .next t ∧
      exec (.keyEncode (BitVec.ofInt 16 (-301)) true false) t = .next u) ∧
    ∃ t u, exec (.keyEncode (BitVec.ofInt 16 (-301)) true false) midway = .next t ∧
      exec (.keyEncode (BitVec.ofInt 16 (-300)) true false) t = .next u :=
  ⟨by decide, ⟨_, _, rfl, rfl⟩, _, _, rfl, rfl⟩

theorem witness_KeyEncodeRunsTheTransitions : (start t0 []).toRegs = Regs.zero := rfl

theorem witness_ChannelsAreIndependent :
    (Channel.l.latch midwayKey.toRegs = Channel.l.latch midway.toRegs ∧
      Channel.l.condition (BitVec.ofInt 16 (-301)) false true = Channel.l.condition (BitVec.ofInt 16 (-32768)) true false ∧
      (∃ t, exec (.keyEncode (BitVec.ofInt 16 (-32768)) true false) midway = .next t) ∧
      ∃ t, exec (.keyEncode (BitVec.ofInt 16 (-301)) false true) midwayKey = .next t) ∧
    [Channel.r, .l, .b, .a].Perm channels := ⟨⟨rfl, by decide, ⟨_, rfl⟩, _, rfl⟩, by decide⟩

theorem witness_LatchesEqualConditions : ∃ t, exec (.keyEncode 301#16 true false) midway = .next t := ⟨_, rfl⟩

theorem witness_RepeatedConditionsEmitNothing :
    (∃ t u, exec (.keyEncode 301#16 true false) midway = .next t ∧ exec (.keyEncode 32767#16 true true) t = .next u) ∧
    Channel.r.condition 32767#16 true true = Channel.r.condition 301#16 true false ∧
    ∃ t u, exec (.keyEncode 301#16 true false) midway = .next t ∧ exec (.keyEncode 301#16 true false) t = .next u :=
  ⟨⟨_, _, rfl, rfl⟩, by decide, _, _, rfl, rfl⟩

theorem witness_TiltChannelsExclude :
    (∃ t, exec (.keyEncode 301#16 true false) midway = .next t) ∧
    ({ start t0 [] with el := true } : State).ea = false ∧ ({ start t0 [] with el := true } : State).eb = false ∧
    ({ start t0 [] with el := true } : State).el = true ∧ ({ start t0 [] with el := true } : State).er = false ∧
    300 < (301#16 : I16).toInt ∧ ∃ t, exec (.keyEncode 301#16 false false) { start t0 [] with el := true } = .next t :=
  ⟨⟨_, rfl⟩, rfl, rfl, rfl, rfl, by decide, _, rfl⟩

theorem witness_KeyStreamIsTheEmissions :
    ¬ (midway.el = true ∧ midway.er = true) ∧ ∃ t, exec (.keyEncode 301#16 false true) midway = .next t :=
  ⟨by decide, _, rfl⟩

theorem witness_KeyEventsReadBack : ∃ t, exec (.keyEncode 301#16 false true) midway = .next t := ⟨_, rfl⟩

theorem witness_MakesAndBreaksPair :
    (start t0 []).toRegs = Regs.zero ∧
    ∃ t, execAll [.keyEncode 301#16 true false, .mouseEncode 1#8 2#8 true true, .keyEncode 0#16 true false] (start t0 []) =
      .next t := ⟨rfl, _, rfl⟩

theorem witness_EveryCommandKeepsThePairing :
    (∃ t, exec (.keyEncode 301#16 false true) midway = .next t) ∧ Paired .a [.make] midway.toRegs ∧
    ∃ t, exec (.mouseEncode 1#8 2#8 true true) midway = .next t := ⟨⟨_, rfl⟩, midway_paired, _, rfl⟩

theorem witness_ResetEdgeWins : (⟨true, true, 0x0100000000000000#64⟩ : Pins).rst = true := rfl

theorem witness_CommandsCompleteAfterTheirLatency :
    (idle { t0 with latKin := 2 }).cfg.wf = true ∧ (idle { t0 with latKin := 2 }).flight = none ∧
    (offer 0x010003E8FF380064#64).rst = false ∧ (offer 0x010003E8FF380064#64).cmdValid = true ∧
    ((∀ q ∈ [offer 0x0300000000000000#64], q.rst = false) ∧
      [offer 0x0300000000000000#64].length < latency { t0 with latKin := 2 } (offer 0x010003E8FF380064#64).cmd) ∧
    (∀ q ∈ [quiet, quiet], q.rst = false) ∧
      [quiet, quiet].length = latency { t0 with latKin := 2 } (offer 0x010003E8FF380064#64).cmd := by decide

theorem witness_EdgesRunTheAcceptedWords :
    (idle t0).flight = none ∧ (Block.run [offer 0x0301000000000000#64, quiet] (idle t0)).flight = none := ⟨rfl, rfl⟩

theorem witness_EveryEdgeKeepsTheAcceptedWords :
    ({ idle t0 with flight := some ⟨0x0301000000000000#64, 1⟩ } : Block).HasRun [0x0301000000000000#64]
      (some Regs.zero) ∧ (idle t0).flight = none := ⟨⟨[], rfl, rfl⟩, rfl⟩

theorem witness_AssemblerKeepsOperandValues :
    (displacementInRange (.int (-128)) ∧ displacementInRange .portDX) ∧
    (displacementInRange .portDY ∧ displacementInRange (.int 127)) ∧
    ¬ (displacementInRange .portDX ∧ displacementInRange (.int 128)) := by
  simp [displacementInRange]

theorem witness_CompletionIsTheStep : CmdWord.wf 0x0301000000000000#64 = true := by decide

theorem witness_OnlyResetRecovers :
    (Block.powerOn t0).regs = none ∧ (∀ p ∈ [offer 0x0301000000000000#64, quiet], p.rst = false) ∧
    (⟨true, false, 0#64⟩ : Pins).rst = true := by decide

end Sys2Proof.Tests
end

section
/-! PROOFS. The reset move (spec 10_state.md R26). -/

namespace Sys2Proof.Proofs

open Sys2Proof Sys2Proof.Machine

/-- The reset move always answers, with the reset registers and the later moves left (R26, log 2). -/
theorem step_reset_move {s : State} {rest : List HostMove} (h : s.inputs = .reset :: rest) :
    step s = .next (s.withInputs rest).resetRegs := by
  simp only [step, h]

theorem toRegs_of_step_reset_move {s t : State} {rest : List HostMove} (h : s.inputs = .reset :: rest)
    (ht : step s = .next t) : t.toRegs = Regs.zero := by
  rw [step_reset_move h] at ht
  cases ht
  exact State.resetRegs_toRegs _

theorem getElem_zero_mp (i : Fin 3) : Regs.zero.mp[i] = 0#8 := by
  fin_cases i <;> rfl

theorem getElem_zero_kp (i : Fin 11) : Regs.zero.kp[i] = 0#8 := by
  fin_cases i <;> rfl

/-- Settles O10: both ways of being just reset leave the one value `Regs.zero`, which is zero register by register; the
reset move writes neither the configuration nor the later moves. -/
theorem resetZeroesEveryRegister : Obligations.ResetZeroesEveryRegister := by
  refine ⟨fun r hr => ?_, fun s rest hs => ?_⟩
  · have hzero : r = Regs.zero := by
      obtain rfl | ⟨s, t, rest, hs, ht, rfl⟩ := hr
      · rfl
      · exact toRegs_of_step_reset_move hs ht
    subst hzero
    exact ⟨rfl, rfl, rfl, rfl, rfl, rfl, rfl, rfl, rfl, rfl, getElem_zero_mp, getElem_zero_kp⟩
  · exact ⟨_, step_reset_move hs, State.resetRegs_cfg _, State.resetRegs_inputs _⟩

end Sys2Proof.Proofs
end

section
/-! PROOFS. The word formats and the opcode map (spec 30_encoding.md R46 to R50). A row's mask test is cut into one
comparison per fixed field, which makes it the model's own format check; and `decode` answers an instruction exactly when
its row is selected and its operands are the word's fields. -/

namespace Sys2Proof.Proofs

open Sys2Proof Sys2Proof.Machine

/-! ### A mask test field by field -/

/-- A comparison under two disjoint masks is one comparison under each mask. -/
theorem and_or_eq_or_iff {n : Nat} {w m m' q q' : BitVec n} (hq : q &&& m = q) (hq' : q' &&& m' = q')
    (hd : m &&& m' = 0#n) : w &&& (m ||| m') = q ||| q' ↔ w &&& m = q ∧ w &&& m' = q' := by
  have hbit : ∀ w m m' q q' : Bool, (q && m) = q → (q' && m') = q' → (m && m') = false →
      ((w && (m || m')) = (q || q') ↔ (w && m) = q ∧ (w && m') = q') := by decide
  simp only [BitVec.eq_of_getLsbD_eq_iff, BitVec.getLsbD_and, BitVec.getLsbD_or, BitVec.getLsbD_zero] at hq hq' hd ⊢
  rw [← forall₂_and]
  exact forall₂_congr fun i hi => hbit _ _ _ _ _ (hq i hi) (hq' i hi) (hd i hi)

/-- A comparison under the mask of one field reads that field. -/
theorem and_placeAt_allOnes_eq_iff {w : CmdWord} {p n : Nat} {v : BitVec n} (hpn : p + n ≤ 64) :
    w &&& placeAt p (BitVec.allOnes n) = placeAt p v ↔ w.extractLsb' p n = v := by
  simp only [BitVec.eq_of_getLsbD_eq_iff, BitVec.getLsbD_and, getLsbD_placeAt, BitVec.getLsbD_allOnes,
    BitVec.getLsbD_extractLsb']
  constructor
  · intro h i hi
    have hbit := h (p + i) (by omega)
    simpa [hi, show p + i < 64 by omega] using hbit
  · intro h k hk
    by_cases hfield : p ≤ k ∧ k - p < n
    · have hbit := h (k - p) hfield.2
      simpa [hk, hfield, Nat.not_lt.mpr hfield.1] using hbit
    · by_cases hpk : k < p
      · simp [hpk]
      · have hout : ¬ k - p < n := fun hlt => hfield ⟨Nat.le_of_not_lt hpk, hlt⟩
        simp [hout, BitVec.getLsbD_of_ge v (k - p) (Nat.le_of_not_lt hout)]

/-- One more fixed field beside those of a mask: the step that takes a row's mask apart. -/
theorem and_or_placeAt_eq_iff {w m q : CmdWord} {p n : Nat} {v : BitVec n} (hpn : p + n ≤ 64) (hq : q &&& m = q)
    (hv : placeAt p v &&& placeAt p (BitVec.allOnes n) = placeAt p v)
    (hd : m &&& placeAt p (BitVec.allOnes n) = 0#64) :
    w &&& (m ||| placeAt p (BitVec.allOnes n)) = q ||| placeAt p v ↔ w &&& m = q ∧ w.extractLsb' p n = v := by
  rw [and_or_eq_or_iff hq hv hd, and_placeAt_allOnes_eq_iff hpn]

/-! ### The rows of the opcode map -/

theorem selects_iff {r : OpcodeRow} {w : CmdWord} : r.selects w = true ↔ w &&& r.mask = r.pattern := by
  rw [OpcodeRow.selects, beq_iff_eq]

/-- The mask of `KIN.UPDATE` fixes exactly the fields that format K fixes (R46). -/
theorem rowKinUpdate_selects_iff {w : CmdWord} : rowKinUpdate.selects w = true ↔ w.isFormatK = true := by
  have hmask : rowKinUpdate.mask = placeAt 56 (BitVec.allOnes 8) ||| placeAt 48 (BitVec.allOnes 8) := by decide
  have hpattern : rowKinUpdate.pattern = placeAt 56 0x01#8 ||| placeAt 48 0#8 := by decide
  rw [selects_iff, hmask, hpattern]
  simp (disch := decide) only [and_or_placeAt_eq_iff, and_placeAt_allOnes_eq_iff, CmdWord.isFormatK, Bool.and_eq_true,
    beq_iff_eq]

/-- The mask of `MOUSE.ENCODE` fixes exactly the fields that format M fixes (R47). -/
theorem rowMouseEncode_selects_iff {w : CmdWord} : rowMouseEncode.selects w = true ↔ w.isFormatM = true := by
  have hmask : rowMouseEncode.mask = placeAt 56 (BitVec.allOnes 8) ||| placeAt 50 (BitVec.allOnes 6) |||
      placeAt 32 (BitVec.allOnes 16) ||| placeAt 24 (BitVec.allOnes 8) ||| placeAt 8 (BitVec.allOnes 8) := by decide
  have hpattern : rowMouseEncode.pattern = placeAt 56 0x02#8 ||| placeAt 50 0#6 ||| placeAt 32 0#16 |||
      placeAt 24 0#8 ||| placeAt 8 0#8 := by decide
  rw [selects_iff, hmask, hpattern]
  simp (disch := decide) only [and_or_placeAt_eq_iff, and_placeAt_allOnes_eq_iff, CmdWord.isFormatM, Bool.and_eq_true,
    beq_iff_eq]

/-- The mask of `KEY.ENCODE` fixes exactly the fields that format E fixes (R48). -/
theorem rowKeyEncode_selects_iff {w : CmdWord} : rowKeyEncode.selects w = true ↔ w.isFormatE = true := by
  have hmask : rowKeyEncode.mask = placeAt 56 (BitVec.allOnes 8) ||| placeAt 50 (BitVec.allOnes 6) |||
      placeAt 16 (BitVec.allOnes 32) := by decide
  have hpattern : rowKeyEncode.pattern = placeAt 56 0x03#8 ||| placeAt 50 0#6 ||| placeAt 16 0#32 := by decide
  rw [selects_iff, hmask, hpattern]
  simp (disch := decide) only [and_or_placeAt_eq_iff, and_placeAt_allOnes_eq_iff, CmdWord.isFormatE, Bool.and_eq_true,
    beq_iff_eq]

/-! ### What a word decodes to -/

/-- The instruction of `i`'s operation with its operands cut from the fields of `w` (R46 to R48). -/
def fromFields (w : CmdWord) : Instr → Instr
  | .kinUpdate _ _ _ => .kinUpdate (fieldF0 w) (fieldF1 w) (fieldF2 w)
  | .mouseEncode _ _ _ _ => .mouseEncode (fieldF0Low w) (fieldF1Low w) (fieldBA w) (fieldBB w)
  | .keyEncode _ _ _ => .keyEncode (fieldF0 w) (fieldBA w) (fieldBB w)

/-- A word that selects an instruction's row carries that instruction's `OP`. -/
theorem fieldOp_of_row_selects {i : Instr} {w : CmdWord} (h : i.row.selects w = true) : fieldOp w = i.opcode := by
  cases i with
  | kinUpdate => exact fieldOp_of_selects (r := rowKinUpdate) h (by decide)
  | mouseEncode => exact fieldOp_of_selects (r := rowMouseEncode) h (by decide)
  | keyEncode => exact fieldOp_of_selects (r := rowKeyEncode) h (by decide)

/-- Which fields are operands depends on the operation alone. -/
theorem fromFields_congr {w : CmdWord} {i j : Instr} (h : i.opcode = j.opcode) : fromFields w i = fromFields w j := by
  revert h
  cases i <;> cases j <;> simp [Instr.opcode, fromFields]

/-- `decode_cases` by instruction: the fields of a selected row's instruction, or no row is selected. -/
theorem decode_cases_row (w : CmdWord) :
    (∃ j : Instr, j.row.selects w = true ∧ decode w = .instr (fromFields w j)) ∨
    ((∀ j : Instr, j.row.selects w = false) ∧ decode w = .illegal (whyIllegal w)) := by
  obtain ⟨hsel, hdec⟩ | ⟨hsel, hdec⟩ | ⟨hsel, hdec⟩ | ⟨hkin, hmouse, hkey, hdec⟩ := decode_cases w
  · exact .inl ⟨.kinUpdate 0 0 0, hsel, hdec⟩
  · exact .inl ⟨.mouseEncode 0 0 false false, hsel, hdec⟩
  · exact .inl ⟨.keyEncode 0 false false, hsel, hdec⟩
  · refine .inr ⟨fun j => ?_, hdec⟩
    cases j with
    | kinUpdate => exact hkin
    | mouseEncode => exact hmouse
    | keyEncode => exact hkey

/-- No other row can be selected too, because the `OP` values differ. -/
theorem decode_of_row_selects {i : Instr} {w : CmdWord} (h : i.row.selects w = true) :
    decode w = .instr (fromFields w i) := by
  obtain ⟨j, hj, hdec⟩ | ⟨hnone, -⟩ := decode_cases_row w
  · have hop : j.opcode = i.opcode := (fieldOp_of_row_selects hj).symm.trans (fieldOp_of_row_selects h)
    rw [hdec, fromFields_congr hop]
  · exact absurd h (by simp [hnone i])

theorem row_fromFields (w : CmdWord) (i : Instr) : (fromFields w i).row = i.row := by
  cases i <;> rfl

/-- A word decodes to an instruction exactly when it selects that instruction's row and holds its operands. -/
theorem decode_eq_instr_iff {w : CmdWord} {i : Instr} :
    decode w = .instr i ↔ i.row.selects w = true ∧ fromFields w i = i := by
  constructor
  · intro h
    obtain ⟨j, hj, hdec⟩ | ⟨-, hdec⟩ := decode_cases_row w
    · obtain rfl : fromFields w j = i := by simpa [hdec] using h
      have hsel : (fromFields w j).row.selects w = true := by rwa [row_fromFields]
      have hself : Decoded.instr (fromFields w j) = .instr (fromFields w (fromFields w j)) :=
        hdec.symm.trans (decode_of_row_selects hsel)
      exact ⟨hsel, (Decoded.instr.inj hself).symm⟩
    · exact absurd (hdec.symm.trans h) (by simp)
  · rintro ⟨hsel, hfields⟩
    rw [decode_of_row_selects hsel, hfields]

/-! ### The formats and the map -/

/-- Settles O3: the row's mask test is the check of format K, and the operands are the fields F0, F1 and F2. -/
theorem formatKFields : Obligations.FormatKFields := by
  intro w sx sy tickMs
  have hrow : (Instr.kinUpdate sx sy tickMs).row.selects w = true ↔ w.isFormatK = true := rowKinUpdate_selects_iff
  rw [decode_eq_instr_iff, hrow]
  simp only [CmdWord.isFormatK, fromFields, fieldF0, fieldF1, fieldF2, Bool.and_eq_true, beq_iff_eq,
    Instr.kinUpdate.injEq]
  tauto

/-- Settles O4: the row's mask test is the check of format M, and the operands are the low halves of F0 and F1 and the
two button bits. -/
theorem formatMFields : Obligations.FormatMFields := by
  intro w dx dy a b
  have hrow : (Instr.mouseEncode dx dy a b).row.selects w = true ↔ w.isFormatM = true := rowMouseEncode_selects_iff
  rw [decode_eq_instr_iff, hrow]
  simp only [CmdWord.isFormatM, fromFields, fieldF0Low, fieldF1Low, fieldBA, fieldBB, Bool.and_eq_true, beq_iff_eq,
    Instr.mouseEncode.injEq]
  tauto

/-- Settles O5: the row's mask test is the check of format E, and the operands are the field F0 and the two button
bits. -/
theorem formatEFields : Obligations.FormatEFields := by
  intro w tiltX a b
  have hrow : (Instr.keyEncode tiltX a b).row.selects w = true ↔ w.isFormatE = true := rowKeyEncode_selects_iff
  rw [decode_eq_instr_iff, hrow]
  simp only [CmdWord.isFormatE, fromFields, fieldF0, fieldBA, fieldBB, Bool.and_eq_true, beq_iff_eq,
    Instr.keyEncode.injEq]
  tauto

/-- Rows of different operations are selected by different words. -/
theorem not_both_selected {i j : Instr} {w : CmdWord} (hop : i.opcode ≠ j.opcode) :
    ¬ (i.row.selects w = true ∧ j.row.selects w = true) :=
  fun ⟨hi, hj⟩ => hop ((fieldOp_of_row_selects hi).symm.trans (fieldOp_of_row_selects hj))

/-- Settles O6: a selected row decides the operation, an operation comes only from its own row, and the rows differ in
`OP`. -/
theorem opcodeMapIsExact : Obligations.OpcodeMapIsExact := by
  intro w
  have hkin : rowKinUpdate.selects w = true ↔ w &&& 0xFFFF000000000000#64 = 0x0100000000000000#64 := selects_iff
  have hmouse : rowMouseEncode.selects w = true ↔ w &&& 0xFFFCFFFFFF00FF00#64 = 0x0200000000000000#64 := selects_iff
  have hkey : rowKeyEncode.selects w = true ↔ w &&& 0xFFFCFFFFFFFF0000#64 = 0x0300000000000000#64 := selects_iff
  rw [← hkin, ← hmouse, ← hkey]
  refine ⟨⟨?_, ?_⟩, ⟨?_, ?_⟩, ⟨?_, ?_⟩, ?_, ?_, ?_⟩
  · rintro ⟨sx, sy, t, hdec⟩
    exact (decode_eq_instr_iff.mp hdec).1
  · exact fun hsel => ⟨_, _, _, decode_of_row_selects (i := .kinUpdate 0 0 0) hsel⟩
  · rintro ⟨dx, dy, a, b, hdec⟩
    exact (decode_eq_instr_iff.mp hdec).1
  · exact fun hsel => ⟨_, _, _, _, decode_of_row_selects (i := .mouseEncode 0 0 false false) hsel⟩
  · rintro ⟨x, a, b, hdec⟩
    exact (decode_eq_instr_iff.mp hdec).1
  · exact fun hsel => ⟨_, _, _, decode_of_row_selects (i := .keyEncode 0 false false) hsel⟩
  · exact not_both_selected (i := .kinUpdate 0 0 0) (j := .mouseEncode 0 0 false false) (by decide)
  · exact not_both_selected (i := .kinUpdate 0 0 0) (j := .keyEncode 0 false false) (by decide)
  · exact not_both_selected (i := .mouseEncode 0 0 false false) (j := .keyEncode 0 false false) (by decide)

end Sys2Proof.Proofs
end

section
/-! PROOFS. The fixed-point primitives against the rational numbers (spec 40_fixed_point.md R69 to R72): each primitive is
the range check of the floor of the exact result. -/

namespace Sys2Proof.Proofs

open Sys2Proof Sys2Proof.Machine

/-! ### The floor of an exact quotient -/

/-- Lean's integer quotient by a positive divisor is the floor of the rational quotient. -/
theorem ediv_eq_floor (n : Int) {d : Int} (hd : 0 < d) : n / d = ⌊(n : ℚ) / d⌋ := by
  lift d to ℕ using hd.le
  exact (Rat.floor_intCast_div_natCast n d).symm

/-- `fxNarrow` changes no raw (R73). -/
theorem toInt_of_fxNarrow_eq_some {r : Int} {x : FX} (h : fxNarrow r = some x) : x.toInt = r := by
  obtain ⟨hfits, rfl⟩ := fxNarrow_eq_some.mp h
  exact toInt_ofInt_of_fits hfits

/-- `fx_mul` narrows the floor of the exact product in units of one ulp (R69). -/
theorem fxMul_eq_fxNarrow_floor (rnd : Rounding) (a b : FX) :
    fxMul rnd a b = fxNarrow ⌊(a.toInt * b.toInt : ℚ) / 2 ^ 32⌋ := by
  have hfloor := ediv_eq_floor (a.toInt * b.toInt) (show 0 < fxOne by decide)
  rw [fxMul, roundedQuotient_eq, fxRaw, fxRaw, hfloor]
  norm_num

/-- `fx_div` by a positive divisor narrows the floor of the exact quotient in units of one ulp (R70). -/
theorem fxDiv_eq_fxNarrow_floor (rnd : Rounding) (a : FX) {b : FX} (hb : 0 < b.toInt) :
    fxDiv rnd a b = fxNarrow ⌊(a.toInt * 2 ^ 32 : ℚ) / b.toInt⌋ := by
  have hfloor := ediv_eq_floor (a.toInt * fxOne) hb
  rw [fxDiv, fxRaw, fxRaw, if_pos hb, roundedQuotient_eq, hfloor]
  norm_num

/-- `fx_floor` is the floor of the value (R71). -/
theorem fxFloor_eq_floor (rnd : Rounding) (a : FX) : fxFloor rnd a = ⌊(a.toInt : ℚ) / 2 ^ 32⌋ := by
  have hfloor := ediv_eq_floor a.toInt (show 0 < fxOne by decide)
  rw [fxFloor, roundedQuotient_eq, fxRaw, hfloor]
  norm_num

theorem fxMul_comm (rnd : Rounding) (a b : FX) : fxMul rnd a b = fxMul rnd b a := by
  rw [fxMul, mul_comm, ← fxMul]

/-- Settles O19: `fx_mul` narrows the floor of the exact product, and the two inequalities of R69 are what a floor is. -/
theorem multiplyRoundsDown : Obligations.MultiplyRoundsDown := by
  intro rnd a b
  refine ⟨fun x hx => ?_, ?_, fxMul_comm rnd a b⟩
  · rw [fxMul_eq_fxNarrow_floor] at hx
    have hraw := toInt_of_fxNarrow_eq_some hx
    obtain ⟨hle, hlt⟩ := Int.floor_eq_iff.mp hraw.symm
    rw [le_div_iff₀ (by norm_num)] at hle
    rw [div_lt_iff₀ (by norm_num)] at hlt
    exact ⟨hraw, by exact_mod_cast hle, by exact_mod_cast hlt⟩
  · rw [fxMul_eq_fxNarrow_floor, fxNarrow_eq_none]

theorem maxAccel_pos_of_wf {c : Config} (h : c.wf = true) : 0 < c.maxAccel.toInt := by
  simp only [Config.wf, Config.maxAccelPositive, Bool.and_eq_true, decide_eq_true_eq] at h
  obtain ⟨⟨⟨⟨hpos, -⟩, -⟩, -⟩, -⟩ := h
  exact hpos

/-- Settles O20: `fx_div` by a positive divisor narrows the floor of the exact quotient; 1000 and 2 keep their sign as FX
values, and `MAX_ACCEL` is positive by R21. -/
theorem divideRoundsDown : Obligations.DivideRoundsDown := by
  refine ⟨fun rnd a b hb => ?_, by decide, by decide, fun c => maxAccel_pos_of_wf⟩
  rw [fxDiv_eq_fxNarrow_floor rnd a hb]
  exact ⟨fun x => toInt_of_fxNarrow_eq_some, fxNarrow_eq_none⟩

/-! ### The integer part and the clamp -/

/-- The upper half of a word, read as a signed integer, is the word's signed integer divided by 2^32. -/
theorem toInt_upperHalf (a : FX) : (a.extractLsb' 32 32).toInt = a.toInt / 2 ^ 32 := by
  have hlt := a.isLt
  rw [BitVec.toInt_eq_toNat_cond, BitVec.toInt_eq_toNat_cond, BitVec.extractLsb'_toNat, Nat.shiftRight_eq_div_pow]
  omega

theorem fxFloor_eq_upperHalf (rnd : Rounding) (a : FX) : fxFloor rnd a = (a.extractLsb' 32 32).toInt := by
  rw [toInt_upperHalf, fxFloor, roundedQuotient_eq, fxRaw]
  norm_num

/-- Settles O21: the floor of the value is the upper half of the raw, so its range is that of a signed 32-bit integer and
the three examples read off their upper halves. -/
theorem floorIsTheUpperHalf : Obligations.FloorIsTheUpperHalf := by
  refine ⟨fun rnd a => ⟨fxFloor_eq_upperHalf rnd a, fxFloor_eq_floor rnd a, ?_, ?_⟩, fun rnd => ?_⟩
  · rw [fxFloor_eq_upperHalf]
    exact BitVec.le_toInt _
  · rw [fxFloor_eq_upperHalf]
    exact Int.le_sub_one_of_lt BitVec.toInt_lt
  · simp only [fxFloor_eq_upperHalf]
    decide

/-- `clamp127` cuts an integer off at both ends of the range (R72). -/
theorem clamp127_eq_max_min (n : Int) : clamp127 n = max (-127) (min n 127) := by
  rw [clamp127, dispMin, dispMax]
  split
  · omega
  · split <;> omega

/-- An `i8` holds every integer of -128..127 (R7). -/
theorem toInt_u8 {n : Int} (h1 : -128 ≤ n) (h2 : n ≤ 127) : (u8 n).toInt = n :=
  BitVec.toInt_ofInt_eq_self (by decide) h1 (Int.lt_add_one_of_le h2)

/-- Settles O22: the clamp as a maximum and a minimum gives the three ranges, and what it answers fits an `i8`. -/
theorem clampSaturates : Obligations.ClampSaturates := by
  intro n
  rw [clamp127_eq_max_min]
  exact ⟨by omega, by omega, by omega, by omega, by omega, toInt_u8 (by omega) (by omega)⟩

end Sys2Proof.Proofs
end

section
/-! PROOFS. The two lanes of `KIN.UPDATE` (spec 41_kinematics.md R85, R86): the command is its x lane and its y lane, each
a function of its own operand and registers, the tick and the constants, and both one computation. -/

namespace Sys2Proof.Proofs

open Sys2Proof Sys2Proof.Machine

/-! ### The lanes -/

/-- What the x lane of `KIN.UPDATE` writes; `none` when it overflows. -/
def laneX (sx : I16) (tickMs : U16) (s : State) : Option LaneResult :=
  lane s.cfg (sampleX sx) s.pax s.vx (BitVec.ofInt 64 (tickRaw tickMs))

/-- What the y lane of `KIN.UPDATE` writes; `none` when it overflows. -/
def laneY (sy : I16) (tickMs : U16) (s : State) : Option LaneResult :=
  lane s.cfg (sampleY s.cfg sy) s.pay s.vy (BitVec.ofInt 64 (tickRaw tickMs))

theorem laneX_congr {sx : I16} {k : U16} {s s' : State} (hcfg : s'.cfg = s.cfg) (hpa : s'.pax = s.pax)
    (hv : s'.vx = s.vx) : laneX sx k s' = laneX sx k s := by
  rw [laneX, laneX, hcfg, hpa, hv]

theorem laneY_congr {sy : I16} {k : U16} {s s' : State} (hcfg : s'.cfg = s.cfg) (hpa : s'.pay = s.pay)
    (hv : s'.vy = s.vy) : laneY sy k s' = laneY sy k s := by
  rw [laneY, laneY, hcfg, hpa, hv]

/-- The x sample is the y sample once the operand carries `Y_SIGN` (R89). -/
theorem sampleX_eq_sampleY {c : Config} {sx sy : I16} (h : sx.toInt = ySignValue c.ySign * sy.toInt) :
    sampleX sx = sampleY c sy := by
  rw [sampleX, sampleY, sext16, sext16, applySign_eq, h]

/-- The lanes are one computation: the only asymmetry is `Y_SIGN` (R86). -/
theorem laneX_eq_laneY {sx sy : I16} {k : U16} {s s' : State} (hcfg : s'.cfg = s.cfg) (hpa : s'.pax = s.pay)
    (hv : s'.vx = s.vy) (hsample : sx.toInt = ySignValue s.cfg.ySign * sy.toInt) : laneX sx k s' = laneY sy k s := by
  rw [laneX, laneY, hcfg, hpa, hv, sampleX_eq_sampleY hsample]

/-- A lane overflows exactly when some value of its exact computation does not fit. -/
theorem lane_eq_none {cfg : Config} (hm : 0 < cfg.maxAccel.toInt) {c pa v dt : FX} :
    lane cfg c pa v dt = none ↔ ¬ (laneTrace cfg c.toInt pa.toInt v.toInt dt.toInt).Fits := by
  simp only [Option.eq_none_iff_forall_ne_some, ne_eq, lane_eq_some hm, not_and]
  exact ⟨fun h hfits => h _ hfits rfl, fun h _ hfits => absurd hfits h⟩

theorem laneX_eq_none {sx : I16} {k : U16} {s : State} (hm : 0 < s.cfg.maxAccel.toInt) :
    laneX sx k s = none ↔ ¬ (traceX sx k s).Fits := by
  rw [laneX, lane_eq_none hm, toInt_sampleX, toInt_tick, traceX]

theorem laneY_eq_none {sy : I16} {k : U16} {s : State} (hm : 0 < s.cfg.maxAccel.toInt) :
    laneY sy k s = none ↔ ¬ (traceY sy k s).Fits := by
  rw [laneY, lane_eq_none hm, toInt_sampleY, toInt_tick, traceY]

/-! ### The command is its two lanes -/

/-- The kinematics answers exactly when both lanes do (R86). -/
theorem kinematics_eq_lanes (sx sy : I16) (k : U16) (s : State) :
    kinematics sx sy k s = (laneX sx k s).bind fun x => (laneY sy k s).bind fun y => some (x, y) := by
  rw [kinematics, tickSeconds_eq]
  rfl

/-- All that `KIN.UPDATE` can do: it is refused (R21), or both lanes answer and it writes what they answer, or one of them
overflows and it faults (R85, 60_exceptions.md R134). -/
theorem exec_kinUpdate_cases (sx sy : I16) (k : U16) (s : State) :
    (s.cfg.maxAccel.toInt ≤ 0 ∧ exec (.kinUpdate sx sy k) s = .refused .illFormedConfig) ∨
    (∃ x y, laneX sx k s = some x ∧ laneY sy k s = some y ∧
      exec (.kinUpdate sx sy k) s = .next (s.writeKinematics x y)) ∨
    ((laneX sx k s = none ∨ laneY sy k s = none) ∧ exec (.kinUpdate sx sy k) s = .fault .fxOverflow) := by
  have hexec : exec (.kinUpdate sx sy k) s = execKinUpdate sx sy k s := rfl
  rw [hexec, execKinUpdate, kinematics_eq_lanes]
  by_cases hm : s.cfg.maxAccelPositive = true
  · rw [if_pos hm]
    cases laneX sx k s with
    | none => exact .inr (.inr ⟨.inl rfl, rfl⟩)
    | some x =>
      cases laneY sy k s with
      | none => exact .inr (.inr ⟨.inr rfl, rfl⟩)
      | some y => exact .inr (.inl ⟨x, y, rfl, rfl, rfl⟩)
  · have hle : s.cfg.maxAccel.toInt ≤ 0 := by simpa [Config.maxAccelPositive] using hm
    exact .inl ⟨hle, if_neg hm⟩

/-- A `KIN.UPDATE` that completes leaves in each lane's registers what that lane answers. -/
theorem lanes_of_kinUpdate_next {sx sy : I16} {k : U16} {s t : State} (h : exec (.kinUpdate sx sy k) s = .next t) :
    laneX sx k s = some ⟨t.pax, t.vx, t.dx⟩ ∧ laneY sy k s = some ⟨t.pay, t.vy, t.dy⟩ := by
  obtain ⟨-, hexec⟩ | ⟨x, y, hx, hy, hexec⟩ | ⟨-, hexec⟩ := exec_kinUpdate_cases sx sy k s
  · cases hexec.symm.trans h
  · cases hexec.symm.trans h
    exact ⟨hx, hy⟩
  · cases hexec.symm.trans h

/-- A fault in either lane faults the whole command, and nothing else does. -/
theorem exec_kinUpdate_eq_fault_iff {sx sy : I16} {k : U16} {s : State} (hm : 0 < s.cfg.maxAccel.toInt) :
    exec (.kinUpdate sx sy k) s = .fault .fxOverflow ↔ laneX sx k s = none ∨ laneY sy k s = none := by
  obtain ⟨hle, -⟩ | ⟨x, y, hx, hy, hexec⟩ | ⟨hnone, hexec⟩ := exec_kinUpdate_cases sx sy k s
  · omega
  · simp [hx, hy, hexec]
  · simp [hnone, hexec]

/-- Registers that hold the same answer of a lane hold the same values. -/
theorem eq_of_same_lane {l l' : Option LaneResult} {pa v pa' v' : FX} {d d' : I8} (hl : l' = l)
    (h : l = some ⟨pa, v, d⟩) (h' : l' = some ⟨pa', v', d'⟩) : pa' = pa ∧ v' = v ∧ d' = d := by
  simpa using h'.symm.trans (hl.trans h)

/-- Settles O29: each lane's registers hold what that lane answers, so two commands agree in a lane where the lane's own
inputs agree, and the y lane agrees with the x lane on the sample with `Y_SIGN` applied; the command faults exactly when
a lane does. -/
theorem lanesAreIndependent : Obligations.LanesAreIndependent := by
  refine ⟨?_, ?_, ?_, ?_⟩
  · intro sx sy sy' k s s' t t' hcfg hpa hv ht ht'
    exact eq_of_same_lane (laneX_congr hcfg hpa hv) (lanes_of_kinUpdate_next ht).1 (lanes_of_kinUpdate_next ht').1
  · intro sx sx' sy k s s' t t' hcfg hpa hv ht ht'
    exact eq_of_same_lane (laneY_congr hcfg hpa hv) (lanes_of_kinUpdate_next ht).2 (lanes_of_kinUpdate_next ht').2
  · intro sx sy k s hm
    rw [exec_kinUpdate_eq_fault_iff hm, laneX_eq_none hm, laneY_eq_none hm]
  · intro sx sy sx' sy' k s s' t t' hcfg hpa hv hsample ht ht'
    exact eq_of_same_lane (laneX_eq_laneY hcfg hpa hv hsample) (lanes_of_kinUpdate_next ht).2
      (lanes_of_kinUpdate_next ht').1

end Sys2Proof.Proofs
end

section
/-! PROOFS. The mouse packet encoder (spec 42_mouse_encoder.md R100, R101): `MOUSE.ENCODE` always completes, with a packet
that is a function of its operands alone; the bits of each byte of that packet follow from where each part is placed. -/

namespace Sys2Proof.Proofs

open Sys2Proof Sys2Proof.Machine

/-! ### The bits of the parts of the frame -/

/-- A button shifted to bit `k` of a byte sets that bit and no other. -/
theorem getLsbD_buttonAt {k : Nat} (hk : k < 8) (b : Bool) (j : Nat) :
    (buttonAt k b).getLsbD j = (decide (j = k) && b) := by
  cases b with
  | false => simp [buttonAt]
  | true =>
    rw [buttonAt, if_pos rfl, ← BitVec.twoPow_eq, BitVec.getLsbD_twoPow]
    simp [hk, eq_comm]

/-- The part `X[7:6]` is two bits wide: bits 7 and 6 of the byte as its bits 1 and 0. -/
theorem getLsbD_highTwo (v : Byte) (j : Nat) :
    (highTwo v).getLsbD j = (decide (j < 2) && v.getLsbD (6 + j)) := by
  rw [highTwo, BitVec.getLsbD_ushiftRight]
  by_cases hj : j < 2
  · simp [hj]
  · simp [hj, BitVec.getLsbD_of_ge v (6 + j) (by omega)]

/-- The mask 0x3F keeps the low six bits of a byte. -/
theorem getLsbD_and_lowSix (v : Byte) (j : Nat) : (v &&& 0x3F#8).getLsbD j = (decide (j < 6) && v.getLsbD j) := by
  have hmask : (0x3F#8).getLsbD j = decide (j < 6) := by
    by_cases hj : j < 8
    · interval_cases j <;> rfl
    · rw [BitVec.getLsbD_of_ge _ _ (by omega), decide_eq_false (by omega)]
  rw [BitVec.getLsbD_and, hmask, Bool.and_comm]

/-! ### The bits of the frame -/

/-- The first byte of the frame: the sync marker, the buttons and the two high parts, each in its place. -/
theorem getLsbD_mouseFrame_first (dx dy : I8) (a b : Bool) (j : Nat) :
    (mouseFrame dx dy a b)[0].getLsbD j =
      ((0x40#8).getLsbD j || (decide (j = 5) && a) || (decide (j = 4) && b) ||
        (decide (j < 8) && !decide (j < 2) && (decide (j - 2 < 2) && dy.getLsbD (6 + (j - 2)))) ||
        (decide (j < 2) && dx.getLsbD (6 + j))) := by
  have hbyte : (mouseFrame dx dy a b)[0] =
      0x40#8 ||| buttonAt 5 a ||| buttonAt 4 b ||| (highTwo dy <<< 2) ||| highTwo dx := rfl
  simp only [hbyte, BitVec.getLsbD_or, BitVec.getLsbD_shiftLeft, getLsbD_highTwo,
    getLsbD_buttonAt (show 5 < 8 by decide), getLsbD_buttonAt (show 4 < 8 by decide)]

theorem getLsbD_mouseFrame_second (dx dy : I8) (a b : Bool) (j : Nat) :
    (mouseFrame dx dy a b)[1].getLsbD j = (decide (j < 6) && dx.getLsbD j) :=
  getLsbD_and_lowSix dx j

theorem getLsbD_mouseFrame_third (dx dy : I8) (a b : Bool) (j : Nat) :
    (mouseFrame dx dy a b)[2].getLsbD j = (decide (j < 6) && dy.getLsbD j) :=
  getLsbD_and_lowSix dy j

/-! ### The command -/

/-- `MOUSE.ENCODE` completes in every state, and writes the frame of its operands to `MP` and nothing else (R100). -/
theorem exec_mouseEncode (dx dy : I8) (a b : Bool) (s : State) :
    exec (.mouseEncode dx dy a b) s = .next { s with mp := mouseFrame dx dy a b } := rfl

/-- The rule's worked example as a frame. -/
theorem mouseFrame_workedExample :
    mouseFrame 5#8 (BitVec.ofInt 8 (-3)) true false = #v[0x6C#8, 0x05#8, 0x3D#8] := by decide

/-- Settles O38: the packet is the frame of the operands, and each row of the rule's table reads off the bits of one of
its bytes. -/
theorem mouseEncodeWritesTheFrame : Obligations.MouseEncodeWritesTheFrame := by
  refine ⟨fun s => ⟨by decide, ?_⟩, fun dx dy a b s => ⟨mouseFrame dx dy a b, exec_mouseEncode dx dy a b s, ?_⟩⟩
  · rw [exec_mouseEncode, mouseFrame_workedExample]
  · simp only [getLsbD_mouseFrame_first, getLsbD_mouseFrame_second, getLsbD_mouseFrame_third]
    simp +contextual

/-- Settles O39: in both states the packet is the frame of the operands, which reads no state. -/
theorem mouseEncodeIsPure : Obligations.MouseEncodeIsPure :=
  fun dx dy a b s s' => ⟨mouseFrame dx dy a b, exec_mouseEncode dx dy a b s, exec_mouseEncode dx dy a b s'⟩

end Sys2Proof.Proofs
end

section
/-! PROOFS. The keyboard edge encoder (spec 43_keyboard_encoder.md R110 to R115): `KEY.ENCODE` always completes, leaving in
each channel's range the emission of that channel's transition and in its latch the condition; and channels write disjoint
ranges, so the order in which they write does not matter. -/

namespace Sys2Proof.Proofs

open Sys2Proof Sys2Proof.Machine

/-! ### The channel table -/

theorem condition_l_eq (x : I16) (a b : Bool) : Channel.l.condition x a b = decide (x.toInt < -300) := rfl

theorem condition_r_eq (x : I16) (a b : Bool) : Channel.r.condition x a b = decide (x.toInt > 300) := rfl

theorem condition_l_iff {x : I16} {a b : Bool} : Channel.l.condition x a b = true ↔ x.toInt < -300 := by
  rw [condition_l_eq, decide_eq_true_eq]

theorem condition_r_iff {x : I16} {a b : Bool} : Channel.r.condition x a b = true ↔ x.toInt > 300 := by
  rw [condition_r_eq, decide_eq_true_eq]

/-- Settles O42: the codes, offsets and lengths are the table's entries as they stand; the tilt conditions are the two
comparisons with the threshold. -/
theorem channelTable : Obligations.ChannelTable :=
  ⟨rfl, rfl, rfl, rfl, rfl, rfl, rfl, rfl, rfl, rfl, rfl, rfl, rfl, rfl, rfl, rfl,
    fun _ _ _ => ⟨Iff.rfl, Iff.rfl, condition_l_iff, condition_r_iff⟩⟩

/-- Settles O44: the four rows of the rule and the three sequences, read off their definitions. -/
theorem transitionTable : Obligations.TransitionTable :=
  ⟨rfl, rfl, rfl, rfl, fun _ => ⟨rfl, rfl, rfl⟩⟩

/-! ### The command -/

/-- `KEY.ENCODE` completes in every state (R124). -/
theorem exec_keyEncode (x : I16) (a b : Bool) (s : State) :
    exec (.keyEncode x a b) s =
      .next (s.writeKeyPacket (keyPacket x a b s.toRegs) (Channel.a.condition x a b) (Channel.b.condition x a b)
        (Channel.l.condition x a b) (Channel.r.condition x a b)) :=
  execKeyEncode_eq x a b s

theorem kp_of_keyEncode_next {x : I16} {a b : Bool} {s t : State} (h : exec (.keyEncode x a b) s = .next t) :
    t.kp = keyPacket x a b s.toRegs := by
  rw [exec_keyEncode] at h
  cases h
  rfl

/-- A `KEY.ENCODE` leaves each latch at its channel's condition. -/
theorem latch_of_keyEncode_next {x : I16} {a b : Bool} {s t : State} (h : exec (.keyEncode x a b) s = .next t)
    (c : Channel) : c.latch t.toRegs = c.condition x a b := by
  rw [exec_keyEncode] at h
  cases h
  cases c <;> rfl

/-- What a channel's range holds after an event: its emission, left-aligned, and zero after it (R114). -/
def rangeAfter (c : Channel) (e : KeyEvent) : List Byte :=
  (c.emission e ++ List.replicate c.length 0#8).take c.length

theorem range_keyPacket (c : Channel) (x : I16) (a b : Bool) (s : Regs) :
    c.range (keyPacket x a b s) = rangeAfter c (c.event x a b s) := by
  obtain ⟨ha, hb, hl, hr, -⟩ := range_packetOf (Channel.a.event x a b s) (Channel.b.event x a b s)
    (Channel.l.event x a b s) (Channel.r.event x a b s)
  rw [keyPacket_eq]
  cases c with
  | a => exact ha
  | b => exact hb
  | l => exact hl
  | r => exact hr

theorem keyPacket_spare (x : I16) (a b : Bool) (s : Regs) : (keyPacket x a b s)[10] = 0#8 := by
  obtain ⟨-, -, -, -, hspare⟩ := range_packetOf (Channel.a.event x a b s) (Channel.b.event x a b s)
    (Channel.l.event x a b s) (Channel.r.event x a b s)
  rw [keyPacket_eq]
  exact hspare

/-- What a `KEY.ENCODE` leaves in a channel's range is a function of the channel's own latch and condition. -/
theorem range_of_keyEncode_next {x : I16} {a b : Bool} {s t : State} (h : exec (.keyEncode x a b) s = .next t)
    (c : Channel) :
    c.range t.kp = rangeAfter c (transition (c.latch s.toRegs) (c.condition x a b)).1 := by
  rw [kp_of_keyEncode_next h, range_keyPacket, Channel.event]

/-! ### The thresholds -/

theorem condition_l_minus300 (a b : Bool) : Channel.l.condition (BitVec.ofInt 16 (-300)) a b = false := rfl

theorem condition_l_minus301 (a b : Bool) : Channel.l.condition (BitVec.ofInt 16 (-301)) a b = true := rfl

/-- The range after the second of two commands depends on the two conditions alone, whatever the state before them. -/
theorem range_of_two_keyEncodes {x x' : I16} {a b a' b' : Bool} {s t u : State}
    (ht : exec (.keyEncode x a b) s = .next t) (hu : exec (.keyEncode x' a' b') t = .next u) (c : Channel) :
    c.range u.kp = rangeAfter c (transition (c.condition x a b) (c.condition x' a' b')).1 := by
  rw [range_of_keyEncode_next hu, latch_of_keyEncode_next ht]

/-- Settles O43: the conditions are strict comparisons of a 16-bit integer; a command at -300 leaves the left latch
inactive and one at -301 leaves it active, so each change between them is a make or a break. -/
theorem thresholdsAreStrict : Obligations.ThresholdsAreStrict := by
  refine ⟨fun x a b => ?_, fun a b a' b' s t u ht hu => ?_, fun a b a' b' s t u ht hu => ?_⟩
  · have hlo : -32768 ≤ x.toInt := BitVec.le_toInt x
    have hhi : x.toInt < 32768 := BitVec.toInt_lt
    refine ⟨?_, ?_, fun h1 h2 => ⟨?_, ?_⟩, rfl, rfl⟩
    · rw [condition_l_iff]
      omega
    · rw [condition_r_iff]
      omega
    · rw [condition_l_eq, decide_eq_false (by omega)]
    · rw [condition_r_eq, decide_eq_false (by omega)]
  · rw [range_of_two_keyEncodes ht hu, condition_l_minus300, condition_l_minus301]
    rfl
  · rw [range_of_two_keyEncodes ht hu, condition_l_minus300, condition_l_minus301]
    rfl

/-! ### All 11 bytes -/

/-- The channels' ranges and the spare byte are the whole packet (20_memory.md R32). -/
theorem toList_eq_ranges (p : Vector Byte kpLen) :
    p.toList = Channel.a.range p ++ Channel.b.range p ++ Channel.l.range p ++ Channel.r.range p ++ [p[10]] := by
  have hlen : p.toList.length = 11 := p.length_toList
  have hspare : p[10] = p.toList[10] := rfl
  calc p.toList = p.toList.take (2 + 2 + 3 + 3) ++ [p[10]] := by
        rw [hspare, List.take_append_getElem, List.take_of_length_le hlen.le]
    _ = Channel.a.range p ++ Channel.b.range p ++ Channel.l.range p ++ Channel.r.range p ++ [p[10]] := by
        simp only [List.take_add, Channel.range, Channel.offset, Channel.length, List.drop_zero]

theorem toList_keyPacket (x : I16) (a b : Bool) (s : Regs) :
    (keyPacket x a b s).toList =
      rangeAfter .a (Channel.a.event x a b s) ++ rangeAfter .b (Channel.b.event x a b s) ++
      rangeAfter .l (Channel.l.event x a b s) ++ rangeAfter .r (Channel.r.event x a b s) ++ [0#8] := by
  rw [toList_eq_ranges, keyPacket_spare]
  simp only [range_keyPacket]

/-- The rule's worked example as a packet (R110). -/
theorem keyPacket_workedExample :
    keyPacket 0#16 true false Regs.zero = #v[0x1A#8, 0#8, 0#8, 0#8, 0#8, 0#8, 0#8, 0#8, 0#8, 0#8, 0#8] := by decide

/-- Settles O45: the new latches are the conditions, which is what a transition leaves, and the packet is the four ranges
and the spare byte. -/
theorem keyEncodeRunsTheTransitions : Obligations.KeyEncodeRunsTheTransitions := by
  refine ⟨fun s hs => ⟨by decide, ?_⟩, fun x a b s => ?_⟩
  · rw [exec_keyEncode, hs, keyPacket_workedExample]
    obtain ⟨regs, cfg, inputs⟩ := s
    cases hs
    rfl
  · refine ⟨keyPacket x a b s.toRegs, Channel.a.condition x a b, Channel.b.condition x a b,
      Channel.l.condition x a b, Channel.r.condition x a b, exec_keyEncode x a b s, ?_, ?_⟩
    · simp only [transition_latch]
      exact ⟨rfl, rfl, condition_l_eq x a b, condition_r_eq x a b⟩
    · exact toList_keyPacket x a b s.toRegs

/-! ### Independence -/

theorem emission_length_le (c : Channel) (e : KeyEvent) : (c.emission e).length ≤ c.length := by
  cases c <;> cases e <;> decide

/-- No two channels share a byte of the packet (20_memory.md R32). -/
theorem ranges_disjoint {c d : Channel} (h : c ≠ d) :
    c.offset + c.length ≤ d.offset ∨ d.offset + d.length ≤ c.offset := by
  revert h
  cases c <;> cases d <;> decide

/-- The form for vectors of `Array.setIfInBounds_comm`. -/
theorem vector_setIfInBounds_comm {n i j : Nat} (p : Vector Byte n) (v w : Byte) (h : i ≠ j) :
    (p.setIfInBounds i v).setIfInBounds j w = (p.setIfInBounds j w).setIfInBounds i v := by
  rw [← Vector.toArray_inj]
  simp only [Vector.toArray_setIfInBounds]
  exact Array.setIfInBounds_comm v w h

/-- A byte written outside the range of a sequence may be written before it or after it. -/
theorem putBytes_setIfInBounds {bytes : List Byte} {p : Vector Byte kpLen} {off i : Nat} {v : Byte}
    (h : i < off ∨ off + bytes.length ≤ i) :
    putBytes (p.setIfInBounds i v) off bytes = (putBytes p off bytes).setIfInBounds i v := by
  induction bytes generalizing p off with
  | nil => rfl
  | cons byte rest ih =>
    rw [List.length_cons] at h
    rw [putBytes, putBytes, vector_setIfInBounds_comm _ _ _ (by omega), ih (by omega)]

/-- Sequences written to disjoint ranges may be written in either order. -/
theorem putBytes_comm {bytes bytes' : List Byte} {p : Vector Byte kpLen} {off off' : Nat}
    (h : off + bytes.length ≤ off' ∨ off' + bytes'.length ≤ off) :
    putBytes (putBytes p off bytes) off' bytes' = putBytes (putBytes p off' bytes') off bytes := by
  induction bytes generalizing p off with
  | nil => rfl
  | cons byte rest ih =>
    rw [List.length_cons] at h
    rw [putBytes, putBytes, ih (by omega), putBytes_setIfInBounds (by omega)]

/-- Two channels may write their emissions in either order. -/
theorem putBytes_emission_comm (c d : Channel) (e e' : KeyEvent) (p : Vector Byte kpLen) (h : c ≠ d) :
    putBytes (putBytes p c.offset (c.emission e)) d.offset (d.emission e') =
      putBytes (putBytes p d.offset (d.emission e')) c.offset (c.emission e) := by
  have hc := emission_length_le c e
  have hd := emission_length_le d e'
  have hdisj := ranges_disjoint h
  exact putBytes_comm (by omega)

/-- The packet does not depend on the order in which the channels of a list write (R115). -/
theorem putEmissions_perm {order order' : List Channel} (h : order.Perm order') (x : I16) (a b : Bool) (s : Regs)
    (p : Vector Byte kpLen) : putEmissions x a b s order p = putEmissions x a b s order' p := by
  induction h generalizing p with
  | nil => rfl
  | cons c _ ih => exact ih _
  | swap c d rest =>
    by_cases hcd : d = c
    · rw [hcd]
    · simp only [putEmissions, putBytes_emission_comm d c _ _ p hcd]
  | trans _ _ ih ih' => exact (ih p).trans (ih' p)

/-- Settles O46: a channel's range and new latch are functions of its own latch and condition, and exchanging two
neighbours in the processing order keeps the packet. -/
theorem channelsAreIndependent : Obligations.ChannelsAreIndependent := by
  refine ⟨fun c x x' a a' b b' s s' t t' hlatch hcond ht ht' => ⟨?_, ?_⟩,
    fun order x a b r hperm => putEmissions_perm hperm x a b r zeroPacket⟩
  · rw [range_of_keyEncode_next ht, range_of_keyEncode_next ht', hlatch, hcond]
  · rw [latch_of_keyEncode_next ht, latch_of_keyEncode_next ht', hcond]

end Sys2Proof.Proofs
end

section
/-! PROOFS. Decoding and encoding as inverses (spec 30_encoding.md section 5), and the illegal words (R51): the fields of a
word written by `encode` are its operands, and the fields of a format are all of the word. -/

namespace Sys2Proof.Proofs

open Sys2Proof Sys2Proof.Machine

/-! ### The fields of a word put together from placed patterns -/

/-- A field read where it was placed. -/
theorem extractLsb'_placeAt_self {p n : Nat} (v : BitVec n) (hpn : p + n ≤ 64) :
    (placeAt p v).extractLsb' p n = v := by
  apply BitVec.eq_of_getLsbD_eq
  intro k hk
  simp [getElem_placeAt, hk, show p + k < 64 by omega]

/-- A field read beside where another was placed is zero. -/
theorem extractLsb'_placeAt_disjoint {p n q m : Nat} (v : BitVec m) (h : q + m ≤ p ∨ p + n ≤ q) :
    (placeAt q v).extractLsb' p n = 0#n := by
  apply BitVec.eq_of_getLsbD_eq
  intro k hk
  obtain hbelow | habove := h
  · simp [getLsbD_placeAt, BitVec.getLsbD_of_ge v (p + k - q) (by omega)]
  · simp [getLsbD_placeAt, show p + k < q by omega]

/-- The operands of an instruction are the fields of its word. -/
theorem fromFields_encode (i : Instr) : fromFields (encode i) i = i := by
  cases i with
  | kinUpdate sx sy t =>
    simp (disch := decide) only [fromFields, encode, fieldF0, fieldF1, fieldF2, BitVec.extractLsb'_or,
      extractLsb'_placeAt_self, extractLsb'_placeAt_disjoint, BitVec.zero_or, BitVec.or_zero]
  | mouseEncode dx dy a b =>
    simp (disch := decide) only [fromFields, encode, fieldF0Low, fieldF1Low, fieldBA, fieldBB, BitVec.extractLsb'_or,
      extractLsb'_placeAt_self, extractLsb'_placeAt_disjoint, BitVec.zero_or, BitVec.or_zero]
    simp [getElem_placeAt, getElem_boolBit]
  | keyEncode x a b =>
    simp (disch := decide) only [fromFields, encode, fieldF0, fieldBA, fieldBB, BitVec.extractLsb'_or,
      extractLsb'_placeAt_self, extractLsb'_placeAt_disjoint, BitVec.zero_or]
    simp [getElem_placeAt, getElem_boolBit]

theorem row_selects_encode (i : Instr) : i.row.selects (encode i) = true := by
  cases i with
  | kinUpdate sx sy t => exact Laws.EncodingSelectsRow.kinUpdate sx sy t
  | mouseEncode dx dy a b => exact Laws.EncodingSelectsRow.mouseEncode dx dy a b
  | keyEncode x a b => exact Laws.EncodingSelectsRow.keyEncode x a b

/-- Every instruction decodes from its own word. -/
@[simp] theorem decode_encode (i : Instr) : decode (encode i) = .instr i :=
  decode_eq_instr_iff.mpr ⟨row_selects_encode i, fromFields_encode i⟩

/-! ### A word is its fields -/

/-- Two words have the same bits below bit `p`. -/
def AgreeBelow (p : Nat) (w w' : CmdWord) : Prop := ∀ k < p, w.getLsbD k = w'.getLsbD k

theorem agreeBelow_zero (w w' : CmdWord) : AgreeBelow 0 w w' := fun _ hk => absurd hk (Nat.not_lt_zero _)

theorem eq_of_agreeBelow {w w' : CmdWord} (h : AgreeBelow 64 w w') : w = w' := BitVec.eq_of_getLsbD_eq h

/-- Words that agree on the next field agree below its end. -/
theorem AgreeBelow.field {p : Nat} {w w' : CmdWord} (h : AgreeBelow p w w') (n : Nat)
    (hfield : w.extractLsb' p n = w'.extractLsb' p n) : AgreeBelow (p + n) w w' := by
  intro k hk
  by_cases hkp : k < p
  · exact h k hkp
  · have hbit := congrArg (fun v => v.getLsbD (k - p)) hfield
    simpa [show k - p < n by omega, show p + (k - p) = k by omega] using hbit

/-- Words that agree on the next bit agree below the one after it. -/
theorem AgreeBelow.bit {p : Nat} {w w' : CmdWord} (h : AgreeBelow p w w') (hbit : w.getLsbD p = w'.getLsbD p) :
    AgreeBelow (p + 1) w w' := by
  intro k hk
  obtain hlt | rfl := Nat.lt_succ_iff_lt_or_eq.mp hk
  · exact h k hlt
  · exact hbit

/-- The fields of each format (R46 to R48) fill the word, so an instruction has one word only. -/
theorem word_unique {w w' : CmdWord} {i : Instr} (h : decode w = .instr i) (h' : decode w' = .instr i) : w = w' := by
  cases i with
  | kinUpdate sx sy t =>
    obtain ⟨hop, hzero, h2, h1, h0⟩ := (formatKFields w sx sy t).mp h
    obtain ⟨hop', hzero', h2', h1', h0'⟩ := (formatKFields w' sx sy t).mp h'
    exact eq_of_agreeBelow (agreeBelow_zero w w'
      |>.field 16 (h0.trans h0'.symm)
      |>.field 16 (h1.trans h1'.symm)
      |>.field 16 (h2.trans h2'.symm)
      |>.field 8 (hzero.trans hzero'.symm)
      |>.field 8 (hop.trans hop'.symm))
  | mouseEncode dx dy a b =>
    obtain ⟨hop, hz50, hb, ha, hz32, hz24, hdy, hz8, hdx⟩ := (formatMFields w dx dy a b).mp h
    obtain ⟨hop', hz50', hb', ha', hz32', hz24', hdy', hz8', hdx'⟩ := (formatMFields w' dx dy a b).mp h'
    exact eq_of_agreeBelow (agreeBelow_zero w w'
      |>.field 8 (hdx.trans hdx'.symm)
      |>.field 8 (hz8.trans hz8'.symm)
      |>.field 8 (hdy.trans hdy'.symm)
      |>.field 8 (hz24.trans hz24'.symm)
      |>.field 16 (hz32.trans hz32'.symm)
      |>.bit (ha.trans ha'.symm)
      |>.bit (hb.trans hb'.symm)
      |>.field 6 (hz50.trans hz50'.symm)
      |>.field 8 (hop.trans hop'.symm))
  | keyEncode x a b =>
    obtain ⟨hop, hz50, hb, ha, hz16, hx⟩ := (formatEFields w x a b).mp h
    obtain ⟨hop', hz50', hb', ha', hz16', hx'⟩ := (formatEFields w' x a b).mp h'
    exact eq_of_agreeBelow (agreeBelow_zero w w'
      |>.field 16 (hx.trans hx'.symm)
      |>.field 32 (hz16.trans hz16'.symm)
      |>.bit (ha.trans ha'.symm)
      |>.bit (hb.trans hb'.symm)
      |>.field 6 (hz50.trans hz50'.symm)
      |>.field 8 (hop.trans hop'.symm))

/-- Settles O2: an instruction decodes from its own word, and it has no other word. -/
theorem decodeEncodeAgree : Obligations.DecodeEncodeAgree :=
  ⟨decode_encode, fun _ i hdec => word_unique (decode_encode i) hdec⟩

/-- Settles O1: each word of the table, decoded. -/
theorem specWordsDecode : Obligations.SpecWordsDecode := by
  unfold Obligations.SpecWordsDecode
  decide

/-! ### The illegal words -/

/-- A word of no format selects no row, and is illegal for the reason its `OP` gives (R51). -/
theorem decode_of_not_wf {w : CmdWord} (h : w.wf = false) : decode w = .illegal (whyIllegal w) := by
  simp only [CmdWord.wf, Bool.or_eq_false_iff] at h
  obtain ⟨⟨hK, hM⟩, hE⟩ := h
  obtain ⟨hsel, -⟩ | ⟨hsel, -⟩ | ⟨hsel, -⟩ | ⟨-, -, -, hdec⟩ := decode_cases w
  · simp [rowKinUpdate_selects_iff, hK] at hsel
  · simp [rowMouseEncode_selects_iff, hM] at hsel
  · simp [rowKeyEncode_selects_iff, hE] at hsel
  · exact hdec

/-- A word of one of the formats selects that format's row, and is an instruction. -/
theorem decode_of_wf {w : CmdWord} (h : w.wf = true) : ∃ i, decode w = .instr i := by
  simp only [CmdWord.wf, Bool.or_eq_true] at h
  obtain (hK | hM) | hE := h
  · exact ⟨_, decode_of_row_selects (i := .kinUpdate 0 0 0) (rowKinUpdate_selects_iff.mpr hK)⟩
  · exact ⟨_, decode_of_row_selects (i := .mouseEncode 0 0 false false) (rowMouseEncode_selects_iff.mpr hM)⟩
  · exact ⟨_, decode_of_row_selects (i := .keyEncode 0 false false) (rowKeyEncode_selects_iff.mpr hE)⟩

/-- The illegal words are those of no format. -/
theorem illegal_iff_not_wf (w : CmdWord) : (∃ why, decode w = .illegal why) ↔ w.wf = false := by
  constructor
  · rintro ⟨why, hdec⟩
    by_contra hwf
    rw [Bool.not_eq_false] at hwf
    obtain ⟨i, hi⟩ := decode_of_wf hwf
    cases hdec.symm.trans hi
  · exact fun h => ⟨_, decode_of_not_wf h⟩

end Sys2Proof.Proofs
end

section
/-! PROOFS. The step and the units (spec 00_scope.md R8, R9; 10_state.md sections 6, 7 and 10; 20_memory.md section 7): what
a step stops for, which registers a command reads and writes, and the form of the reachable states. -/

namespace Sys2Proof.Proofs

open Sys2Proof Sys2Proof.Machine

/-! ### The step on a command word -/

theorem step_of_idle {s : State} (h : s.inputs = []) : step s = .next s := by
  rw [step, h]

theorem step_of_command {s : State} {w : CmdWord} {rest : List HostMove} (h : s.inputs = .command w :: rest) :
    step s = acceptCommand w (s.withInputs rest) := by
  rw [step, h]

theorem acceptCommand_of_instr {w : CmdWord} {i : Instr} (h : decode w = .instr i) (s : State) :
    acceptCommand w s = exec i s := by
  rw [acceptCommand, h]

theorem acceptCommand_of_illegal {w : CmdWord} {why : IllegalReason} (h : decode w = .illegal why) (s : State) :
    acceptCommand w s = .refused (.illegalWord why) := by
  rw [acceptCommand, h]

/-- A step on a legal word runs the instruction (R52). -/
theorem step_of_instr {s : State} {w : CmdWord} {rest : List HostMove} {i : Instr}
    (h : s.inputs = .command w :: rest) (hdec : decode w = .instr i) : step s = exec i (s.withInputs rest) :=
  (step_of_command h).trans (acceptCommand_of_instr hdec _)

/-- Settles O8: the word is taken from the moves, decoded, and run. -/
theorem stepRunsDecodedCommand : Obligations.StepRunsDecodedCommand :=
  fun _ _ _ _ h hdec => step_of_instr h hdec

/-- Settles O9: the presented word is the instruction's own, so it decodes to the instruction, and taking it leaves the
moves as they were. -/
theorem presentedInstructionRunsNext : Obligations.PresentedInstructionRunsNext := by
  intro s i
  have hword : BitVec.ofNat 64 ((encode i).toNat % 2 ^ 64) = encode i := by
    rw [Nat.mod_eq_of_lt (encode i).isLt, BitVec.ofNat_toNat, BitVec.setWidth_eq]
  have hinputs : (s.withFetchWord 64 (encode i).toNat).inputs = .command (encode i) :: s.inputs := by
    rw [State.withFetchWord, hword, State.withInputs_inputs]
  rw [step_of_instr hinputs (decode_encode i), State.withFetchWord, State.withInputs_withInputs, State.withInputs_self]

/-- Settles O11: the step has no move to take. -/
theorem idleStepHoldsEverything : Obligations.IdleStepHoldsEverything :=
  fun _ => step_of_idle

/-! ### What stops a command -/

/-- Settles O28: the check of `MAX_ACCEL` comes before everything else. -/
theorem kinUpdateRefusesIllFormedConfig : Obligations.KinUpdateRefusesIllFormedConfig := by
  intro sx sy k s hle
  have hnot : ¬ s.cfg.maxAccelPositive = true := by simpa [Config.maxAccelPositive] using hle
  exact if_neg hnot

/-- `KIN.UPDATE` completes when both lanes answer, with what they answer. -/
theorem exec_kinUpdate_of_lanes {sx sy : I16} {k : U16} {s : State} {x y : LaneResult}
    (hm : 0 < s.cfg.maxAccel.toInt) (hx : laneX sx k s = some x) (hy : laneY sy k s = some y) :
    exec (.kinUpdate sx sy k) s = .next (s.writeKinematics x y) := by
  obtain ⟨hle, -⟩ | ⟨x', y', hx', hy', hexec⟩ | ⟨hnone, -⟩ := exec_kinUpdate_cases sx sy k s
  · omega
  · cases hx.symm.trans hx'
    cases hy.symm.trans hy'
    exact hexec
  · simp [hx, hy] at hnone

/-- A `KIN.UPDATE` faults exactly when some value of a lane does not fit. -/
theorem exec_kinUpdate_fault_iff_not_fits {sx sy : I16} {k : U16} {s : State} (hm : 0 < s.cfg.maxAccel.toInt) :
    exec (.kinUpdate sx sy k) s = .fault .fxOverflow ↔ ¬ ((traceX sx k s).Fits ∧ (traceY sy k s).Fits) := by
  rw [exec_kinUpdate_eq_fault_iff hm, laneX_eq_none hm, laneY_eq_none hm, not_and_or]

/-- The only fault of a command (60_exceptions.md R131). -/
theorem exec_fault {i : Instr} {s : State} {f : Fault} (h : exec i s = .fault f) :
    f = .fxOverflow ∧ ∃ sx sy k, i = .kinUpdate sx sy k ∧ 0 < s.cfg.maxAccel.toInt ∧
      ¬ ((traceX sx k s).Fits ∧ (traceY sy k s).Fits) := by
  cases i with
  | kinUpdate sx sy k =>
    cases f
    have hm : 0 < s.cfg.maxAccel.toInt := by
      by_contra hle
      cases (kinUpdateRefusesIllFormedConfig sx sy k s (not_lt.mp hle)).symm.trans h
    exact ⟨rfl, sx, sy, k, rfl, hm, (exec_kinUpdate_fault_iff_not_fits hm).mp h⟩
  | mouseEncode dx dy a b => cases (exec_mouseEncode dx dy a b s).symm.trans h
  | keyEncode x a b => cases (exec_keyEncode x a b s).symm.trans h

/-- The only refusal of a command (10_state.md R21). -/
theorem exec_refused {i : Instr} {s : State} {r : Refusal} (h : exec i s = .refused r) :
    r = .illFormedConfig ∧ s.cfg.maxAccel.toInt ≤ 0 ∧ ∃ sx sy k, i = .kinUpdate sx sy k := by
  cases i with
  | kinUpdate sx sy k =>
    obtain ⟨hle, hexec⟩ | ⟨x, y, -, -, hexec⟩ | ⟨-, hexec⟩ := exec_kinUpdate_cases sx sy k s
    · cases hexec.symm.trans h
      exact ⟨rfl, hle, sx, sy, k, rfl⟩
    · cases hexec.symm.trans h
    · cases hexec.symm.trans h
  | mouseEncode dx dy a b => cases (exec_mouseEncode dx dy a b s).symm.trans h
  | keyEncode x a b => cases (exec_keyEncode x a b s).symm.trans h

/-! ### What stops a step -/

/-- A step that does not answer a next state took a command word. -/
theorem step_stops {s : State} (h : ∀ t, step s ≠ .next t) :
    ∃ w rest, s.inputs = .command w :: rest ∧ step s = acceptCommand w (s.withInputs rest) := by
  cases hin : s.inputs with
  | nil => exact absurd (step_of_idle hin) (h s)
  | cons move rest =>
    cases move with
    | command w => exact ⟨w, rest, rfl, step_of_command hin⟩
    | reset => exact absurd (step_reset_move hin) (h _)

theorem wf_of_decode_illegal {w : CmdWord} {why : IllegalReason} (h : decode w = .illegal why) : w.wf = false :=
  (illegal_iff_not_wf w).mp ⟨why, h⟩

/-- Settles O12: a step that stops took a word, which either is illegal or decodes to a command that stops; taking the word
changes neither the configuration nor the lanes. -/
theorem stepStopsForNamedReasons : Obligations.StepStopsForNamedReasons := by
  refine ⟨fun s f h => ?_, fun s r h => ?_, fun s w rest hin => ⟨fun hwf => ?_, fun sx sy k hdec => ⟨fun hle => ?_,
    fun hm hfits => ?_⟩⟩⟩
  · obtain ⟨w, rest, hin, hstep⟩ := step_stops (s := s) (by simp [h])
    rw [h] at hstep
    cases hdec : decode w with
    | illegal why => cases hstep.trans (acceptCommand_of_illegal hdec _)
    | instr i =>
      obtain ⟨hf, sx, sy, k, rfl, hm, hfits⟩ := exec_fault (hstep.trans (acceptCommand_of_instr hdec _)).symm
      exact ⟨hf, w, rest, sx, sy, k, hin, hdec, hm, hfits⟩
  · obtain ⟨w, rest, hin, hstep⟩ := step_stops (s := s) (by simp [h])
    rw [h] at hstep
    cases hdec : decode w with
    | illegal why =>
      cases hstep.trans (acceptCommand_of_illegal hdec _)
      exact .inl ⟨w, rest, why, hin, wf_of_decode_illegal hdec, hdec, rfl⟩
    | instr i =>
      obtain ⟨hr, hle, sx, sy, k, rfl⟩ := exec_refused (hstep.trans (acceptCommand_of_instr hdec _)).symm
      exact .inr ⟨w, rest, sx, sy, k, hin, hdec, hle, hr⟩
  · exact (step_of_command hin).trans (acceptCommand_of_illegal (decode_of_not_wf hwf) _)
  · exact (step_of_instr hin hdec).trans (kinUpdateRefusesIllFormedConfig sx sy k _ hle)
  · exact (step_of_instr hin hdec).trans ((exec_kinUpdate_fault_iff_not_fits (s := s.withInputs rest) hm).mpr hfits)

/-! ### The rows of the commands (10_state.md R22) -/

/-- The packet depends on the registers through the latches only. -/
theorem keyPacket_congr {x : I16} {a b : Bool} {s s' : Regs} (h : ∀ c : Channel, c.latch s' = c.latch s) :
    keyPacket x a b s' = keyPacket x a b s := by
  simp only [keyPacket_eq, Channel.event, h]

/-- Settles O13: what each command writes is written by its named write, and computed from the registers it reads. -/
theorem commandsReadAndWriteTheirRow : Obligations.CommandsReadAndWriteTheirRow := by
  refine ⟨?_, ?_, ?_, ?_, ?_, ?_⟩
  · intro sx sy k s t h
    obtain ⟨-, -, -, rfl⟩ := execKinUpdate_next h
    rfl
  · intro dx dy a b s t h
    cases (exec_mouseEncode dx dy a b s).symm.trans h
    rfl
  · intro x a b s t h
    cases (exec_keyEncode x a b s).symm.trans h
    rfl
  · intro sx sy k s s' t hcfg hpax hpay hvx hvy h
    obtain ⟨hx, hy⟩ := lanes_of_kinUpdate_next h
    obtain ⟨hm, -⟩ := execKinUpdate_next h
    exact exec_kinUpdate_of_lanes (hcfg ▸ hm) ((laneX_congr hcfg hpax hvx).trans hx) ((laneY_congr hcfg hpay hvy).trans hy)
  · intro dx dy a b s s' t h
    cases (exec_mouseEncode dx dy a b s).symm.trans h
    exact exec_mouseEncode dx dy a b s'
  · intro x a b s s' t hea heb hel her h
    have hlatch : ∀ c : Channel, c.latch s'.toRegs = c.latch s.toRegs := by
      intro c
      cases c with
      | a => exact hea
      | b => exact heb
      | l => exact hel
      | r => exact her
    cases (exec_keyEncode x a b s).symm.trans h
    rw [exec_keyEncode, keyPacket_congr hlatch]
    rfl

/-! ### The units commute -/

/-- An outcome with its next state, where there is one, changed by a function. -/
def mapNext (f : State → State) : Host.Outcome State Fault Refusal → Host.Outcome State Fault Refusal
  | .next t => .next (f t)
  | .fault r => .fault r
  | .refused r => .refused r

/-- A change of the state outside the kinematics unit: it keeps what `KIN.UPDATE` reads, and may be made before or after
what `KIN.UPDATE` writes. -/
structure BesideKinematics (f : State → State) : Prop where
  cfg : ∀ s, (f s).cfg = s.cfg
  pax : ∀ s, (f s).pax = s.pax
  pay : ∀ s, (f s).pay = s.pay
  vx : ∀ s, (f s).vx = s.vx
  vy : ∀ s, (f s).vy = s.vy
  write : ∀ s x y, (f s).writeKinematics x y = f (s.writeKinematics x y)

theorem besideKinematics_withInputs (m : List HostMove) : BesideKinematics fun s => s.withInputs m :=
  ⟨fun _ => rfl, fun _ => rfl, fun _ => rfl, fun _ => rfl, fun _ => rfl, fun _ _ _ => rfl⟩

theorem besideKinematics_writeMousePacket (m : Vector Byte mpLen) : BesideKinematics fun s => s.writeMousePacket m :=
  ⟨fun _ => rfl, fun _ => rfl, fun _ => rfl, fun _ => rfl, fun _ => rfl, fun _ _ _ => rfl⟩

/-- What `KEY.ENCODE` leaves. -/
def afterKeyEncode (x : I16) (a b : Bool) (s : State) : State :=
  s.writeKeyPacket (keyPacket x a b s.toRegs) (Channel.a.condition x a b) (Channel.b.condition x a b)
    (Channel.l.condition x a b) (Channel.r.condition x a b)

theorem besideKinematics_afterKeyEncode (x : I16) (a b : Bool) : BesideKinematics (afterKeyEncode x a b) :=
  ⟨fun _ => rfl, fun _ => rfl, fun _ => rfl, fun _ => rfl, fun _ => rfl, fun _ _ _ => rfl⟩

/-- A change outside the kinematics unit does not affect the outcome of `KIN.UPDATE`. -/
theorem BesideKinematics.exec_kinUpdate {f : State → State} (hf : BesideKinematics f) (sx sy : I16) (k : U16)
    (s : State) : exec (.kinUpdate sx sy k) (f s) = mapNext f (exec (.kinUpdate sx sy k) s) := by
  have hlx : laneX sx k (f s) = laneX sx k s := laneX_congr (hf.cfg s) (hf.pax s) (hf.vx s)
  have hly : laneY sy k (f s) = laneY sy k s := laneY_congr (hf.cfg s) (hf.pay s) (hf.vy s)
  by_cases hm : 0 < s.cfg.maxAccel.toInt
  · have hm' : 0 < (f s).cfg.maxAccel.toInt := by rwa [hf.cfg]
    obtain ⟨hle, -⟩ | ⟨x, y, hx, hy, hexec⟩ | ⟨hnone, hexec⟩ := exec_kinUpdate_cases sx sy k s
    · omega
    · rw [hexec, exec_kinUpdate_of_lanes hm' (hlx.trans hx) (hly.trans hy), hf.write]
      rfl
    · rw [hexec, (exec_kinUpdate_eq_fault_iff hm').mpr (by rwa [hlx, hly])]
      rfl
  · have hle : s.cfg.maxAccel.toInt ≤ 0 := not_lt.mp hm
    rw [kinUpdateRefusesIllFormedConfig sx sy k s hle,
      kinUpdateRefusesIllFormedConfig sx sy k (f s) (by rwa [hf.cfg])]
    rfl

theorem execAll_cons_of_next {i : Instr} {rest : List Instr} {s t : State} (h : exec i s = .next t) :
    execAll (i :: rest) s = execAll rest t := by
  simp only [execAll, h]

theorem execAll_singleton (i : Instr) (s : State) : execAll [i] s = exec i s := by
  rw [execAll]
  cases exec i s <;> rfl

/-- A command that always completes, run after another, changes that one's outcome by its own effect. -/
theorem execAll_pair_of_total {i j : Instr} {g : State → State} (hj : ∀ s, exec j s = .next (g s)) (s : State) :
    execAll [i, j] s = mapNext g (exec i s) := by
  rw [execAll]
  cases exec i s with
  | next t => exact (execAll_singleton j t).trans (hj t)
  | fault r => rfl
  | refused r => rfl

/-- `KIN.UPDATE` commutes with a command that always completes and works outside the kinematics unit. -/
theorem kinUpdate_commutes {j : Instr} {g : State → State} (hg : BesideKinematics g) (hj : ∀ s, exec j s = .next (g s))
    (sx sy : I16) (k : U16) (s : State) : execAll [.kinUpdate sx sy k, j] s = execAll [j, .kinUpdate sx sy k] s := by
  rw [execAll_pair_of_total hj, execAll_cons_of_next (hj s), execAll_singleton, hg.exec_kinUpdate]

/-- `MOUSE.ENCODE` and `KEY.ENCODE` write different registers, and neither reads what the other writes. -/
theorem mouseEncode_commutes_keyEncode (dx dy : I8) (a b : Bool) (x : I16) (a' b' : Bool) (s : State) :
    execAll [.mouseEncode dx dy a b, .keyEncode x a' b'] s = execAll [.keyEncode x a' b', .mouseEncode dx dy a b] s := by
  rw [execAll_pair_of_total (exec_keyEncode x a' b'), execAll_pair_of_total (exec_mouseEncode dx dy a b),
    exec_mouseEncode, exec_keyEncode]
  rfl

/-- Settles O17: of two units at most one is the kinematics unit, whose outcome the others do not affect; the other two
always complete. -/
theorem unitsCommute : Obligations.UnitsCommute := by
  intro i j s hop
  cases i with
  | kinUpdate sx sy k =>
    cases j with
    | kinUpdate => exact absurd rfl hop
    | mouseEncode dx dy a b =>
      exact kinUpdate_commutes (besideKinematics_writeMousePacket _) (exec_mouseEncode dx dy a b) sx sy k s
    | keyEncode x a b => exact kinUpdate_commutes (besideKinematics_afterKeyEncode x a b) (exec_keyEncode x a b) sx sy k s
  | mouseEncode dx dy a b =>
    cases j with
    | kinUpdate sx sy k =>
      exact (kinUpdate_commutes (besideKinematics_writeMousePacket _) (exec_mouseEncode dx dy a b) sx sy k s).symm
    | mouseEncode => exact absurd rfl hop
    | keyEncode x a' b' => exact mouseEncode_commutes_keyEncode dx dy a b x a' b' s
  | keyEncode x a b =>
    cases j with
    | kinUpdate sx sy k =>
      exact (kinUpdate_commutes (besideKinematics_afterKeyEncode x a b) (exec_keyEncode x a b) sx sy k s).symm
    | mouseEncode dx dy a' b' => exact (mouseEncode_commutes_keyEncode dx dy a' b' x a b s).symm
    | keyEncode => exact absurd rfl hop

/-- The host's later moves do not affect a command (log 2). -/
theorem exec_withInputs (i : Instr) (s : State) (m : List HostMove) :
    exec i (s.withInputs m) = mapNext (fun t => t.withInputs m) (exec i s) := by
  cases i with
  | kinUpdate sx sy k => exact (besideKinematics_withInputs m).exec_kinUpdate sx sy k s
  | mouseEncode dx dy a b => rfl
  | keyEncode x a b => rfl

/-! ### The configuration -/

theorem cfg_of_exec_next {i : Instr} {s t : State} (h : exec i s = .next t) : t.cfg = s.cfg := by
  obtain ⟨sx, sy, k, x, y, -, rfl⟩ | ⟨dx, dy, a, b, -, rfl⟩ | ⟨x, a, b, -, rfl⟩ := exec_next h
  · rfl
  · rfl
  · rfl

theorem cfg_of_step_next {s t : State} (h : step s = .next t) : t.cfg = s.cfg := by
  obtain ⟨-, rfl⟩ | ⟨w, rest, i, -, -, hexec⟩ | ⟨rest, -, rfl⟩ := step_next h
  · rfl
  · exact cfg_of_exec_next (s := s.withInputs rest) hexec
  · rfl

@[simp] theorem edge_cfg (b : Block) (p : Pins) : (b.edge p).cfg = b.cfg := by
  unfold Block.edge
  split
  · rfl
  · split
    · split <;> rfl
    · split <;> rfl

theorem run_cfg (ps : List Pins) (b : Block) : (Block.run ps b).cfg = b.cfg := by
  induction ps generalizing b with
  | nil => rfl
  | cons p rest ih => rw [Block.run, ih, edge_cfg]

/-- Settles O14: no step and no edge writes the configuration. -/
theorem configurationNeverChanges : Obligations.ConfigurationNeverChanges :=
  ⟨fun _ _ => cfg_of_step_next, run_cfg⟩

/-! ### The reachable form (10_state.md R27) -/

theorem sext16_bounds (v : I16) : -32768 ≤ sext16 v ∧ sext16 v ≤ 32767 :=
  ⟨BitVec.le_toInt v, Int.le_sub_one_of_lt BitVec.toInt_lt⟩

/-- `Y_SIGN` = -1 takes -32768 to 32768, which no sample operand has. -/
theorem applySign_sext16_bounds (g : Sign) (v : I16) :
    -32768 ≤ applySign g (sext16 v) ∧ applySign g (sext16 v) ≤ 32768 := by
  have hv := sext16_bounds v
  cases g <;> simp only [applySign] <;> omega

theorem toInt_displacement (n : Int) : (u8 (clamp127 n)).toInt = clamp127 n := by
  obtain ⟨-, -, -, -, -, hheld⟩ := clampSaturates n
  exact hheld

theorem displacement_bounds (n : Int) : -127 ≤ (u8 (clamp127 n)).toInt ∧ (u8 (clamp127 n)).toInt ≤ 127 := by
  obtain ⟨-, -, -, hlo, hhi, hheld⟩ := clampSaturates n
  omega

/-- The bits that frame a triple are where the buttons and the displacement bits are not. -/
theorem validFrame_mouseFrame (dx dy : I8) (a b : Bool) : validFrame (mouseFrame dx dy a b) = true := by
  have hfirst : (mouseFrame dx dy a b)[0].extractLsb' 6 2 = 0b01#2 := by
    apply BitVec.eq_of_getLsbD_eq
    intro k hk
    simp only [BitVec.getLsbD_extractLsb', getLsbD_mouseFrame_first]
    interval_cases k <;> simp
  have hsecond : (mouseFrame dx dy a b)[1].extractLsb' 6 2 = 0b00#2 := by
    apply BitVec.eq_of_getLsbD_eq
    intro k hk
    simp only [BitVec.getLsbD_extractLsb', getLsbD_mouseFrame_second]
    interval_cases k <;> simp
  have hthird : (mouseFrame dx dy a b)[2].extractLsb' 6 2 = 0b00#2 := by
    apply BitVec.eq_of_getLsbD_eq
    intro k hk
    simp only [BitVec.getLsbD_extractLsb', getLsbD_mouseFrame_third]
    interval_cases k <;> simp
  simp only [validFrame, hfirst, hsecond, hthird, BEq.rfl, Bool.and_self]

/-- No tilt activates both tilt channels. -/
theorem tilt_conditions_exclude (x : I16) (a b : Bool) :
    ¬ (Channel.l.condition x a b = true ∧ Channel.r.condition x a b = true) := by
  rw [condition_l_iff, condition_r_iff]
  omega

/-- Every command that completes keeps the reachable form: the clauses about its own row hold of what it writes, the others
are as they were. -/
theorem exec_keeps_inv {i : Instr} {s t : State} (hinv : Inv s.toRegs) (h : exec i s = .next t) : Inv t.toRegs := by
  cases i with
  | kinUpdate sx sy k =>
    obtain ⟨-, -, -, rfl⟩ := execKinUpdate_next h
    obtain ⟨hxlo, hxhi⟩ := sext16_bounds sx
    obtain ⟨hylo, hyhi⟩ := applySign_sext16_bounds s.cfg.ySign sy
    exact { hinv with
      pax_integer := ⟨sext16 sx, hxlo, hxhi, rfl⟩
      pay_integer := ⟨applySign s.cfg.ySign (sext16 sy), hylo, hyhi, rfl⟩
      dx_clamped := displacement_bounds _
      dy_clamped := displacement_bounds _ }
  | mouseEncode dx dy a b =>
    cases (exec_mouseEncode dx dy a b s).symm.trans h
    exact { hinv with mp_framed := .inr (validFrame_mouseFrame dx dy a b) }
  | keyEncode x a b =>
    cases (exec_keyEncode x a b s).symm.trans h
    exact { hinv with
      tilt_exclusive := tilt_conditions_exclude x a b
      kp_spare_zero := keyPacket_spare x a b s.toRegs }

theorem inv_zero : Inv Regs.zero where
  pax_integer := ⟨0, by decide⟩
  pay_integer := ⟨0, by decide⟩
  tilt_exclusive := by decide
  dx_clamped := by decide
  dy_clamped := by decide
  mp_framed := .inl rfl
  kp_spare_zero := rfl

/-- Settles O15: an idle step changes nothing, a command keeps the form, and the reset registers have it. -/
theorem everyStepKeepsTheReachableForm : Obligations.EveryStepKeepsTheReachableForm := by
  intro s t hinv h
  obtain ⟨-, rfl⟩ | ⟨w, rest, i, -, -, hexec⟩ | ⟨rest, -, rfl⟩ := step_next h
  · exact hinv
  · exact exec_keeps_inv (s := s.withInputs rest) hinv hexec
  · exact inv_zero

theorem tickForm_zero (k : U16) : TickForm k Regs.zero :=
  ⟨⟨0, by omega, by omega, rfl, (Int.zero_mul _).symm⟩, 0, by omega, by omega, rfl, (Int.zero_mul _).symm⟩

theorem paired_zero (c : Channel) : Paired c [] Regs.zero := by
  cases c <;> exact ⟨rfl, rfl⟩

/-- Settles O16: the all-zero registers have each of the three forms. -/
theorem resetHasTheReachableForm : Obligations.ResetHasTheReachableForm :=
  ⟨inv_zero, tickForm_zero, paired_zero⟩

end Sys2Proof.Proofs
end

section
/-! PROOFS. Makes and breaks (spec 43_keyboard_encoder.md R117 to R121, R123): what a receiver reads back from a packet, and
how the events of a run of commands pair with the latches. -/

namespace Sys2Proof.Proofs

open Sys2Proof Sys2Proof.Machine

/-! ### One command -/

/-- Settles O47: the latch of a channel is its condition, and the four conditions are the four comparisons. -/
theorem latchesEqualConditions : Obligations.LatchesEqualConditions := by
  intro x a b s t h
  have hlatch := latch_of_keyEncode_next h
  exact ⟨hlatch .a, hlatch .b, (hlatch .l).trans (condition_l_eq x a b), (hlatch .r).trans (condition_r_eq x a b)⟩

/-- The three contents of a range tell the events apart (R120). -/
theorem readEvent_of_range {c : Channel} {e : KeyEvent} {p : Vector Byte kpLen} (h : c.range p = rangeAfter c e) :
    c.readEvent p = some e := by
  rw [Channel.readEvent, h]
  cases c <;> cases e <;> decide

/-- Settles O51: the range holds the emission of the channel's event. -/
theorem keyEventsReadBack : Obligations.KeyEventsReadBack :=
  fun _ _ _ _ _ h c => readEvent_of_range (range_of_keyEncode_next h c)

theorem transition_same (cond : Bool) : (transition cond cond).1 = .nothing := by
  cases cond <;> rfl

theorem rangeAfter_nothing (c : Channel) : rangeAfter c .nothing = List.replicate c.length 0#8 := by
  cases c <;> rfl

/-- A packet whose channels all emitted nothing is zero, given its spare byte is. -/
theorem kp_zero_of_ranges_zero {p : Vector Byte kpLen} (h : ∀ c : Channel, c.range p = List.replicate c.length 0#8)
    (hspare : p[10] = 0#8) (i : Fin 11) : p[i] = 0#8 := by
  have hlist : p.toList = List.replicate 11 0#8 := by
    rw [toList_eq_ranges, h, h, h, h, hspare]
    rfl
  have hzero : p = zeroPacket := Vector.toList_inj.mp (hlist.trans rfl)
  rw [hzero]
  fin_cases i <;> rfl

/-- Settles O48: the second command's transition starts from the condition of the first, and a transition to the same
condition emits nothing. -/
theorem repeatedConditionsEmitNothing : Obligations.RepeatedConditionsEmitNothing := by
  intro x x' a a' b b' s t u ht hu
  have hsilent : ∀ c : Channel, c.condition x' a' b' = c.condition x a b →
      c.range u.kp = List.replicate c.length 0#8 := by
    intro c hc
    rw [range_of_two_keyEncodes ht hu, hc, transition_same, rangeAfter_nothing]
  refine ⟨fun c hc => ⟨hsilent c hc, ?_⟩, ?_⟩
  · rw [latch_of_keyEncode_next ht, latch_of_keyEncode_next hu, hc]
  · rintro rfl rfl rfl
    refine kp_zero_of_ranges_zero (fun c => hsilent c rfl) ?_
    rw [kp_of_keyEncode_next hu]
    exact keyPacket_spare _ _ _ _

/-! ### The stream -/

/-- Removing the zero filler of a range gives the emission back: no code byte is zero. -/
theorem nonzeroPrefix_rangeAfter (c : Channel) (e : KeyEvent) : nonzeroPrefix (rangeAfter c e) = c.emission e := by
  cases c <;> cases e <;> decide

theorem kstream_of_keyEncode_next {x : I16} {a b : Bool} {s t : State} (h : exec (.keyEncode x a b) s = .next t) :
    kstream t.kp =
      Channel.a.emission (Channel.a.event x a b s.toRegs) ++ Channel.b.emission (Channel.b.event x a b s.toRegs) ++
      Channel.l.emission (Channel.l.event x a b s.toRegs) ++ Channel.r.emission (Channel.r.event x a b s.toRegs) := by
  simp only [kstream, channels, List.flatMap_cons, List.flatMap_nil, List.append_nil, range_of_keyEncode_next h,
    nonzeroPrefix_rangeAfter, List.append_assoc, Channel.event]

/-- A break comes only from an active latch (R113). -/
theorem transition_eq_release {latch cond : Bool} (h : (transition latch cond).1 = .release) :
    latch = true ∧ cond = false := by
  revert h
  cases latch <;> cases cond <;> decide

/-- A make comes only from an inactive latch (R113). -/
theorem transition_eq_make {latch cond : Bool} (h : (transition latch cond).1 = .make) :
    latch = false ∧ cond = true := by
  revert h
  cases latch <;> cases cond <;> decide

/-- Only a break fills a range. -/
theorem emission_length_lt {c : Channel} {e : KeyEvent} (h : e ≠ .release) : (c.emission e).length < c.length := by
  revert h
  cases c <;> cases e <;> decide

/-- The tilt channels emit six bytes only when both break, which takes both latches. -/
theorem tilt_emissions_length_le {x : I16} {a b : Bool} {s : Regs} (h : ¬ (s.el = true ∧ s.er = true)) :
    (Channel.l.emission (Channel.l.event x a b s)).length + (Channel.r.emission (Channel.r.event x a b s)).length ≤ 5 := by
  have hl : (Channel.l.emission (Channel.l.event x a b s)).length ≤ 3 := emission_length_le .l _
  have hr : (Channel.r.emission (Channel.r.event x a b s)).length ≤ 3 := emission_length_le .r _
  by_cases hbl : Channel.l.event x a b s = .release
  · have hnr : Channel.r.event x a b s ≠ .release := fun hbr =>
      h ⟨(transition_eq_release hbl).1, (transition_eq_release hbr).1⟩
    have hlt : (Channel.r.emission (Channel.r.event x a b s)).length < 3 := emission_length_lt hnr
    omega
  · have hlt : (Channel.l.emission (Channel.l.event x a b s)).length < 3 := emission_length_lt hbl
    omega

/-- Settles O50: the stream is the four emissions, of at most 2, 2, 3 and 3 bytes; from A, B and left held, a swing to the
right emits nine. -/
theorem keyStreamIsTheEmissions : Obligations.KeyStreamIsTheEmissions := by
  refine ⟨fun x a b s t h => ?_, 301#16, false, false, { State.reset with ea := true, eb := true, el := true }, _,
    by decide, rfl, by decide⟩
  have hstream := kstream_of_keyEncode_next h
  have hspare : t.kp[10] = 0#8 := by
    rw [kp_of_keyEncode_next h]
    exact keyPacket_spare x a b s.toRegs
  have ha : (Channel.a.emission (Channel.a.event x a b s.toRegs)).length ≤ 2 := emission_length_le .a _
  have hb : (Channel.b.emission (Channel.b.event x a b s.toRegs)).length ≤ 2 := emission_length_le .b _
  have hl : (Channel.l.emission (Channel.l.event x a b s.toRegs)).length ≤ 3 := emission_length_le .l _
  have hr : (Channel.r.emission (Channel.r.event x a b s.toRegs)).length ≤ 3 := emission_length_le .r _
  refine ⟨hstream, fun htilt => ?_, ?_, hspare⟩
  · have hlr := tilt_emissions_length_le (x := x) (a := a) (b := b) htilt
    simp only [hstream, List.length_append]
    omega
  · simp only [hstream, List.length_append]
    omega

theorem event_of_latch {c : Channel} {x : I16} {a b latch cond : Bool} {s : Regs} (hlatch : c.latch s = latch)
    (hcond : c.condition x a b = cond) : c.event x a b s = (transition latch cond).1 := by
  rw [Channel.event, hlatch, hcond]

/-- Settles O49: the two comparisons exclude each other, and so do the latches and makes that come from them; the swing's
four events are those of its four transitions. -/
theorem tiltChannelsExclude : Obligations.TiltChannelsExclude := by
  refine ⟨fun x a b s t h => ⟨tilt_conditions_exclude x a b, ?_, ?_⟩, fun x s t hea heb hel her hx h => ?_⟩
  · have hl : t.el = Channel.l.condition x a b := latch_of_keyEncode_next h .l
    have hr : t.er = Channel.r.condition x a b := latch_of_keyEncode_next h .r
    rw [hl, hr]
    exact tilt_conditions_exclude x a b
  · rw [keyEventsReadBack x a b s t h .l, keyEventsReadBack x a b s t h .r]
    rintro ⟨hl, hr⟩
    exact tilt_conditions_exclude x a b
      ⟨(transition_eq_make (Option.some.inj hl)).2, (transition_eq_make (Option.some.inj hr)).2⟩
  · have hcl : Channel.l.condition x false false = false := by
      rw [condition_l_eq, decide_eq_false (by omega)]
    have hcr : Channel.r.condition x false false = true := condition_r_iff.mpr hx
    have hna : Channel.a.event x false false s.toRegs = .nothing := event_of_latch (c := .a) hea rfl
    have hnb : Channel.b.event x false false s.toRegs = .nothing := event_of_latch (c := .b) heb rfl
    have hbl : Channel.l.event x false false s.toRegs = .release := event_of_latch (c := .l) hel hcl
    have hmr : Channel.r.event x false false s.toRegs = .make := event_of_latch (c := .r) her hcr
    refine ⟨?_, ?_, ?_⟩
    · rw [kp_of_keyEncode_next h, range_keyPacket, hbl]
      rfl
    · rw [kp_of_keyEncode_next h, range_keyPacket, hmr]
      rfl
    · rw [kstream_of_keyEncode_next h, hna, hnb, hbl, hmr]
      rfl

/-! ### The pairing of one command -/

/-- The event of a transition is worth the change of the latch (R113). -/
theorem latchNumber_transition (latch cond : Bool) :
    latchNumber cond = latchNumber latch + (transition latch cond).1.balance := by
  cases latch <;> cases cond <;> rfl

theorem channelEvents_cons_of_next {c : Channel} {i : Instr} {rest : List Instr} {s t : State}
    (h : exec i s = .next t) : channelEvents c (i :: rest) s = channelEvents c [i] s ++ channelEvents c rest t := by
  cases i <;> simp [channelEvents, h]

/-- What a channel did in one `KEY.ENCODE`, read back from the packet. -/
theorem channelEvents_keyEncode (c : Channel) (x : I16) (a b : Bool) (s : State) :
    channelEvents c [.keyEncode x a b] s = [(transition (c.latch s.toRegs) (c.condition x a b)).1] := by
  simp only [channelEvents, exec_keyEncode, readEvent_of_range (range_of_keyEncode_next (exec_keyEncode x a b s) c),
    Option.toList_some, List.append_nil]

/-- The other commands touch neither the latches nor the packet, and emit nothing. -/
theorem channel_of_not_keyEncode {i : Instr} (hi : ∀ x a b, i ≠ .keyEncode x a b) {s t : State}
    (h : exec i s = .next t) (c : Channel) :
    channelEvents c [i] s = [] ∧ c.latch t.toRegs = c.latch s.toRegs ∧ t.kp = s.kp := by
  cases i with
  | kinUpdate sx sy k =>
    obtain ⟨-, -, -, rfl⟩ := execKinUpdate_next h
    exact ⟨by simp [channelEvents, h], by cases c <;> rfl, rfl⟩
  | mouseEncode dx dy a b =>
    cases (exec_mouseEncode dx dy a b s).symm.trans h
    exact ⟨by simp [channelEvents, h], by cases c <;> rfl, rfl⟩
  | keyEncode x a b => exact absurd rfl (hi x a b)

theorem latch_of_not_keyEncode {i : Instr} (hi : ∀ x a b, i ≠ .keyEncode x a b) {s t : State}
    (h : exec i s = .next t) {c : Channel} : c.latch t.toRegs = c.latch s.toRegs := by
  obtain ⟨-, hlatch, -⟩ := channel_of_not_keyEncode hi h c
  exact hlatch

/-! ### Alternation -/

/-- Whether the key is held after a list of events: what its last make or break left. -/
def heldAfter (held : Bool) : List KeyEvent → Bool
  | [] => held
  | .nothing :: rest => heldAfter held rest
  | .make :: rest => heldAfter true rest
  | .release :: rest => heldAfter false rest

/-- A list of events that alternates goes on alternating from the key as it leaves it. -/
theorem alternates_append (held : Bool) (es es' : List KeyEvent) :
    alternates held (es ++ es') = (alternates held es && alternates (heldAfter held es) es') := by
  induction es generalizing held with
  | nil => rfl
  | cons e rest ih => cases e <;> simp [alternates, heldAfter, ih, Bool.and_assoc]

/-- Over alternating events, the makes less the breaks are the change of the key (R121). -/
theorem latchNumber_heldAfter {held : Bool} {es : List KeyEvent} (h : alternates held es = true) :
    latchNumber (heldAfter held es) = latchNumber held + ((es.count .make : Int) - es.count .release) := by
  induction es generalizing held with
  | nil => simp [heldAfter]
  | cons e rest ih =>
    cases e with
    | nothing => simpa [heldAfter] using ih (by simpa [alternates] using h)
    | make =>
      obtain ⟨rfl, hrest⟩ : held = false ∧ alternates true rest = true := by simpa [alternates] using h
      rw [heldAfter, ih hrest]
      simp [latchNumber]
      omega
    | release =>
      obtain ⟨rfl, hrest⟩ : held = true ∧ alternates false rest = true := by simpa [alternates] using h
      rw [heldAfter, ih hrest]
      simp [latchNumber]
      omega

theorem latchNumber_injective : Function.Injective latchNumber := by
  intro l l'
  cases l <;> cases l' <;> simp [latchNumber]

/-- The pairing says that the key is held exactly when the latch is active. -/
theorem heldAfter_of_paired {c : Channel} {emitted : List KeyEvent} {s : Regs} (h : Paired c emitted s) :
    heldAfter false emitted = c.latch s := by
  apply latchNumber_injective
  rw [latchNumber_heldAfter h.alternate, ← h.balance]
  simp [latchNumber]

/-- The event of a transition carries the pairing from the old latch to the new one. -/
theorem paired_append_transition {c : Channel} {emitted : List KeyEvent} {s t : Regs} {cond : Bool} (h : Paired c emitted s)
    (ht : c.latch t = cond) : Paired c (emitted ++ [(transition (c.latch s) cond).1]) t := by
  have hheld := heldAfter_of_paired h
  have hbal := h.balance
  constructor
  · rw [ht, latchNumber_transition (c.latch s) cond, ← hbal]
    cases (transition (c.latch s) cond).1 <;> simp [KeyEvent.balance] <;> omega
  · rw [alternates_append, h.alternate, hheld]
    cases c.latch s <;> cases cond <;> rfl

/-- Settles O53: a `KEY.ENCODE` emits for each channel the event of one transition, which carries the pairing on; every other
command leaves what the pairing speaks of. -/
theorem everyCommandKeepsThePairing : Obligations.EveryCommandKeepsThePairing := by
  intro c i s t h
  refine ⟨?_, fun hi => channel_of_not_keyEncode hi h c, fun emitted hpaired => ?_⟩
  · rintro x a b rfl
    have hlatch := latch_of_keyEncode_next h c
    refine ⟨_, readEvent_of_range (range_of_keyEncode_next h c), channelEvents_keyEncode c x a b s, ?_, ?_, ?_⟩
    · rw [hlatch]
      exact latchNumber_transition _ _
    · rw [hlatch]
      exact transition_eq_make
    · rw [hlatch]
      exact transition_eq_release
  · by_cases hi : ∃ x a b, i = .keyEncode x a b
    · obtain ⟨x, a, b, rfl⟩ := hi
      rw [channelEvents_keyEncode]
      exact paired_append_transition hpaired (latch_of_keyEncode_next h c)
    · obtain ⟨hnone, hlatch, -⟩ := channel_of_not_keyEncode (fun x a b he => hi ⟨x, a, b, he⟩) h c
      rw [hnone, List.append_nil]
      exact ⟨by rw [hlatch]; exact hpaired.balance, hpaired.alternate⟩

/-! ### Runs -/

/-- A run that completes is a first command that completes and a run from there. -/
theorem execAll_cons_next {i : Instr} {rest : List Instr} {s u : State} (h : execAll (i :: rest) s = .next u) :
    ∃ t, exec i s = .next t ∧ execAll rest t = .next u := by
  cases hexec : exec i s with
  | next t => exact ⟨t, rfl, (execAll_cons_of_next hexec).symm.trans h⟩
  | fault r => simp [execAll, hexec] at h
  | refused r => simp [execAll, hexec] at h

/-- The pairing is kept by every run that completes. -/
theorem paired_of_execAll {c : Channel} {is : List Instr} {s t : State} {emitted : List KeyEvent}
    (hpaired : Paired c emitted s.toRegs) (h : execAll is s = .next t) :
    Paired c (emitted ++ channelEvents c is s) t.toRegs := by
  induction is generalizing s emitted with
  | nil =>
    cases h
    simpa [channelEvents] using hpaired
  | cons i rest ih =>
    obtain ⟨u, hexec, hrest⟩ := execAll_cons_next h
    obtain ⟨-, -, hkeep⟩ := everyCommandKeepsThePairing c i s u hexec
    rw [channelEvents_cons_of_next hexec, ← List.append_assoc]
    exact ih (hkeep emitted hpaired) hrest

/-- After a run each latch is the condition of the last `KEY.ENCODE`, as it was where there was none. -/
theorem latch_of_execAll {c : Channel} {is : List Instr} {s t : State} (h : execAll is s = .next t) :
    c.latch t.toRegs = lastCondition c (c.latch s.toRegs) is := by
  induction is generalizing s with
  | nil =>
    cases h
    rfl
  | cons i rest ih =>
    obtain ⟨u, hexec, hrest⟩ := execAll_cons_next h
    rw [ih hrest]
    cases i with
    | keyEncode x a b => rw [latch_of_keyEncode_next hexec, lastCondition]
    | kinUpdate sx sy k => rw [latch_of_not_keyEncode (by simp) hexec, lastCondition]
    | mouseEncode dx dy a b => rw [latch_of_not_keyEncode (by simp) hexec, lastCondition]

theorem latch_zero (c : Channel) : c.latch Regs.zero = false := by
  cases c <;> rfl

/-- Settles O52: the run starts paired with nothing emitted, and every command keeps the pairing. -/
theorem makesAndBreaksPair : Obligations.MakesAndBreaksPair := by
  intro c is s t hs h
  have hstart : Paired c [] s.toRegs := hs ▸ paired_zero c
  obtain ⟨hbalance, halternate⟩ := paired_of_execAll hstart h
  refine ⟨hbalance, ?_, halternate⟩
  rw [latch_of_execAll h, hs, latch_zero]

end Sys2Proof.Proofs
end

section
/-! PROOFS. The clocked interface (spec 10_state.md R24; 70_reset_and_hazards.md R145 to R148, R158): one edge in each
situation of the block, a command's edges from acceptance to completion, and the registers as the result of the accepted
words. -/

namespace Sys2Proof.Proofs

open Sys2Proof Sys2Proof.Machine

/-! ### One edge -/

theorem edge_of_reset {p : Pins} (h : p.rst = true) (b : Block) :
    b.edge p = { cfg := b.cfg, regs := some Regs.zero, flight := none } := by
  rw [Block.edge, if_pos h]

/-- A command in flight at its last edge completes. -/
theorem edge_of_completing {b : Block} {p : Pins} {f : Flight} (hrst : p.rst = false) (hb : b.flight = some f)
    (hlast : f.edgesLeft ≤ 1) :
    b.edge p = { cfg := b.cfg, regs := completeWord b.cfg f.word b.regs, flight := none } := by
  simp [Block.edge, hrst, hb, hlast]

/-- A command in flight before its last edge goes on. -/
theorem edge_of_flying {b : Block} {p : Pins} {f : Flight} (hrst : p.rst = false) (hb : b.flight = some f)
    (hmore : 1 < f.edgesLeft) : b.edge p = { b with flight := some { f with edgesLeft := f.edgesLeft - 1 } } := by
  simp [Block.edge, hrst, hb, Nat.not_le.mpr hmore]

/-- An idle block takes the word that is offered. -/
theorem edge_of_accepting {b : Block} {p : Pins} {w : CmdWord} (hrst : p.rst = false) (hb : b.flight = none)
    (hw : b.accepts p = some w) : b.edge p = { b with flight := some { word := w, edgesLeft := latency b.cfg w } } := by
  simp [Block.edge, hrst, hb, hw]

theorem edge_of_idle {b : Block} {p : Pins} (hrst : p.rst = false) (hb : b.flight = none) (hw : b.accepts p = none) :
    b.edge p = b := by
  simp [Block.edge, hrst, hb, hw]

theorem accepts_of_idle {b : Block} {p : Pins} (hb : b.flight = none) (hrst : p.rst = false) (hv : p.cmdValid = true) :
    b.accepts p = some p.cmd := by
  simp [Block.accepts, Block.cmdReady, hb, hrst, hv]

theorem cmdReady_of_flight {b : Block} {f : Flight} (hb : b.flight = some f) (rst : Bool) : b.cmdReady rst = false := by
  simp [Block.cmdReady, hb]

/-- While a command is in flight no word is accepted (R24). -/
theorem accepts_of_flight {b : Block} {f : Flight} (hb : b.flight = some f) (p : Pins) : b.accepts p = none := by
  simp [Block.accepts, cmdReady_of_flight hb]

theorem accepts_of_reset {p : Pins} (h : p.rst = true) (b : Block) : b.accepts p = none := by
  simp [Block.accepts, Block.cmdReady, h]

/-- Settles O54: `cmd_ready` is 0 while `rst` is 1, and the reset branch of the edge comes before every other. -/
theorem resetEdgeWins : Obligations.ResetEdgeWins := by
  intro b p hrst
  rw [edge_of_reset hrst]
  exact ⟨accepts_of_reset hrst b, rfl, rfl, rfl⟩

/-! ### From acceptance to completion -/

/-- Without reset a command in flight keeps the registers for all but its last edge, counting them down. -/
theorem run_of_flying {ps : List Pins} {b : Block} {f : Flight} (hrst : ∀ q ∈ ps, q.rst = false)
    (hb : b.flight = some f) (hlen : ps.length < f.edgesLeft) :
    Block.run ps b = { b with flight := some { f with edgesLeft := f.edgesLeft - ps.length } } := by
  induction ps generalizing b f with
  | nil =>
    obtain ⟨cfg, regs, flight⟩ := b
    cases hb
    rfl
  | cons p rest ih =>
    rw [List.length_cons] at hlen
    obtain ⟨hp, hrest⟩ := List.forall_mem_cons.mp hrst
    rw [Block.run, edge_of_flying hp hb (by omega), ih hrest rfl (by simp only; omega), List.length_cons,
      Nat.sub_sub, Nat.add_comm 1]

theorem run_append (ps qs : List Pins) (b : Block) : Block.run (ps ++ qs) b = Block.run qs (Block.run ps b) := by
  induction ps generalizing b with
  | nil => rfl
  | cons p rest ih => exact ih _

/-- At the last edge of a command in flight all its writes happen. -/
theorem run_to_completion {ps : List Pins} {b : Block} {f : Flight} (hrst : ∀ q ∈ ps, q.rst = false)
    (hb : b.flight = some f) (hpos : 0 < f.edgesLeft) (hlen : ps.length = f.edgesLeft) :
    Block.run ps b = { cfg := b.cfg, regs := completeWord b.cfg f.word b.regs, flight := none } := by
  obtain ⟨qs, q, rfl⟩ : ∃ qs q, ps = qs ++ [q] :=
    (List.eq_nil_or_concat' ps).resolve_left (List.ne_nil_of_length_pos (by omega))
  rw [List.length_append, List.length_singleton] at hlen
  have hqs : ∀ p ∈ qs, p.rst = false := fun p hp => hrst p (List.mem_append_left [q] hp)
  have hq : q.rst = false := hrst q (by simp)
  have hlast : f.edgesLeft - qs.length ≤ 1 := by omega
  rw [run_append, run_of_flying hqs hb (by omega), Block.run, Block.run]
  exact edge_of_completing (f := ⟨f.word, f.edgesLeft - qs.length⟩) hq rfl hlast

/-- Every latency of a well-formed configuration is at least 1 (R158). -/
theorem latency_pos {c : Config} (h : c.wf = true) (w : CmdWord) : 0 < latency c w := by
  simp only [Config.wf, Bool.and_eq_true, decide_eq_true_eq] at h
  obtain ⟨⟨⟨⟨-, hkin⟩, hmouse⟩, hkey⟩, hillegal⟩ := h
  unfold latency
  split
  · exact hkin
  · exact hmouse
  · exact hkey
  · exact hillegal

/-- Settles O55: the accepted word is in flight with its latency to go, before its last edge or just after it. -/
theorem commandsCompleteAfterTheirLatency : Obligations.CommandsCompleteAfterTheirLatency := by
  intro b p ps hwf hb hrst hv hps
  have haccepted := edge_of_accepting hrst hb (accepts_of_idle hb hrst hv)
  refine ⟨fun hlt => ?_, fun hlen => ?_⟩
  · have hrun : Block.run (p :: ps) b = { b with flight := some ⟨p.cmd, latency b.cfg p.cmd - ps.length⟩ } := by
      rw [Block.run, haccepted, run_of_flying hps rfl hlt]
    rw [hrun]
    exact ⟨rfl, rfl, cmdReady_of_flight rfl false, accepts_of_flight rfl⟩
  · rw [Block.run, haccepted, run_to_completion hps rfl (latency_pos hwf p.cmd) hlen]

/-! ### What a completed word leaves -/

theorem completeWord_none (c : Config) (w : CmdWord) : completeWord c w none = none := rfl

/-- An illegal word changes no register (R51). -/
theorem completeWord_illegal {w : CmdWord} {why : IllegalReason} (h : decode w = .illegal why) (c : Config)
    (regs : Option Regs) : completeWord c w regs = regs := by
  cases regs with
  | none => rfl
  | some r => simp only [completeWord, h]

/-- The registers of an outcome's next state, none where there is none. -/
def nextRegs : Host.Outcome State Fault Refusal → Option Regs
  | .next t => some t.toRegs
  | .fault _ => none
  | .refused _ => none

theorem completeWord_instr {w : CmdWord} {i : Instr} (h : decode w = .instr i) (c : Config) (r : Regs) :
    completeWord c w (some r) = nextRegs (exec i { toRegs := r, cfg := c, inputs := [] }) := by
  simp only [completeWord, h]
  rfl

theorem nextRegs_mapNext_withInputs (m : List HostMove) (o : Host.Outcome State Fault Refusal) :
    nextRegs (mapNext (fun t => t.withInputs m) o) = nextRegs o := by
  cases o <;> rfl

/-- Settles O58: the step runs the same instruction in the same registers, and the moves still to come do not affect it. -/
theorem completionIsTheStep : Obligations.CompletionIsTheStep := by
  intro c r w rest hwf
  obtain ⟨i, hdec⟩ := decode_of_wf hwf
  have hstep := step_of_instr (s := { toRegs := r, cfg := c, inputs := .command w :: rest }) rfl hdec
  have hmoves := exec_withInputs i { toRegs := r, cfg := c, inputs := [] } rest
  calc completeWord c w (some r)
      = nextRegs (exec i { toRegs := r, cfg := c, inputs := [] }) := completeWord_instr hdec c r
    _ = nextRegs (step { toRegs := r, cfg := c, inputs := .command w :: rest }) := by
        rw [hstep, ← nextRegs_mapNext_withInputs rest, ← hmoves]
        rfl
    _ = _ := by
        cases step { toRegs := r, cfg := c, inputs := .command w :: rest } <;> rfl

theorem latency_illegal {w : CmdWord} {why : IllegalReason} (h : decode w = .illegal why) (c : Config) :
    latency c w = c.latIllegal := by
  simp only [latency, h]

/-- Settles O7: a word of no format selects no row; in flight for its latency it changes nothing, and leaves the block as it
was. -/
theorem illegalWordsChangeNothing : Obligations.IllegalWordsChangeNothing := by
  refine ⟨illegal_iff_not_wf, by decide, fun b p ps hwf hb hrst hv hill hps hlen => ?_⟩
  have hdec := decode_of_not_wf hill
  obtain ⟨-, hdone⟩ := commandsCompleteAfterTheirLatency b p ps hwf hb hrst hv hps
  rw [hdone (hlen.trans (latency_illegal hdec b.cfg).symm), completeWord_illegal hdec]
  obtain ⟨cfg, regs, flight⟩ := b
  cases hb
  rfl

/-! ### The registers are what the accepted words leave -/

theorem completeWords_append (c : Config) (ws : List CmdWord) (w : CmdWord) (regs : Option Regs) :
    completeWords c (ws ++ [w]) regs = completeWord c w (completeWords c ws regs) := by
  induction ws generalizing regs with
  | nil => rfl
  | cons v rest ih => exact ih _

theorem hasRun_of_idle {b : Block} (hb : b.flight = none) : b.HasRun [] b.regs :=
  ⟨[], by rw [hb]; rfl, rfl⟩

/-- The registers of an idle block are what all the accepted words leave. -/
theorem regs_of_hasRun {b : Block} {accepted : List CmdWord} {start : Option Regs} (h : b.HasRun accepted start)
    (hb : b.flight = none) : b.regs = completeWords b.cfg accepted start := by
  obtain ⟨completed, hacc, hregs⟩ := h
  rw [hb] at hacc
  simp only [Option.map_none, Option.toList_none, List.append_nil] at hacc
  rwa [hacc]

/-- An edge with reset abandons what was accepted and starts anew. -/
theorem hasRun_edge_of_reset {b : Block} {p : Pins} (hrst : p.rst = true) : (b.edge p).HasRun [] (some Regs.zero) := by
  rw [edge_of_reset hrst]
  exact hasRun_of_idle rfl

/-- An edge without reset completes, advances or accepts a word, or does nothing. -/
theorem hasRun_edge_of_no_reset {b : Block} {p : Pins} {accepted : List CmdWord} {start : Option Regs}
    (hrst : p.rst = false) (h : b.HasRun accepted start) :
    (b.edge p).HasRun (accepted ++ (b.accepts p).toList) start := by
  obtain ⟨completed, rfl, hregs⟩ := h
  cases hb : b.flight with
  | some f =>
    rw [accepts_of_flight hb, Option.toList_none, List.append_nil]
    by_cases hlast : f.edgesLeft ≤ 1
    · rw [edge_of_completing hrst hb hlast]
      refine ⟨completed ++ [f.word], (List.append_nil _).symm, ?_⟩
      rw [completeWords_append, ← hregs]
    · rw [edge_of_flying hrst hb (Nat.lt_of_not_le hlast)]
      exact ⟨completed, rfl, hregs⟩
  | none =>
    cases hw : b.accepts p with
    | some w =>
      rw [edge_of_accepting hrst hb hw]
      exact ⟨completed, by simp, hregs⟩
    | none =>
      rw [edge_of_idle hrst hb hw]
      exact ⟨completed, by simp [hb], hregs⟩

/-- Settles O57: the edge with reset, the edge without. -/
theorem everyEdgeKeepsTheAcceptedWords : Obligations.EveryEdgeKeepsTheAcceptedWords := by
  refine ⟨fun b p accepted start h => ?_, fun b => hasRun_of_idle⟩
  cases hrst : p.rst with
  | true => exact hasRun_edge_of_reset hrst
  | false => exact hasRun_edge_of_no_reset hrst h

/-- Over any edges the registers stay what the accepted words leave, from reset on where there was one. -/
theorem hasRun_run {ps : List Pins} {b : Block} {accepted : List CmdWord} {start : Option Regs}
    (h : b.HasRun accepted start) :
    (Block.run ps b).HasRun (Block.acceptedSinceReset accepted ps b)
      (if ps.any Pins.rst then some Regs.zero else start) := by
  induction ps generalizing b accepted start with
  | nil => exact h
  | cons p rest ih =>
    obtain ⟨hedge, -⟩ := everyEdgeKeepsTheAcceptedWords
    have hrun := ih (hedge b p accepted start h)
    have hstart : (if (p :: rest).any Pins.rst then some Regs.zero else start) =
        if rest.any Pins.rst then some Regs.zero else if p.rst then some Regs.zero else start := by
      cases hp : p.rst <;> simp [hp]
    rw [hstart]
    exact hrun

/-- Settles O56: the run keeps the form of an idle block, and where it ends idle all the accepted words are complete. -/
theorem edgesRunTheAcceptedWords : Obligations.EdgesRunTheAcceptedWords := by
  intro ps b hb hend
  rw [← run_cfg ps b]
  exact regs_of_hasRun (hasRun_run (hasRun_of_idle hb)) hend

/-! ### Only reset recovers -/

/-- An edge without reset gives undefined registers no value. -/
theorem edge_regs_none {b : Block} {p : Pins} (hrst : p.rst = false) (hregs : b.regs = none) : (b.edge p).regs = none := by
  cases hb : b.flight with
  | some f =>
    by_cases hlast : f.edgesLeft ≤ 1
    · rw [edge_of_completing hrst hb hlast, hregs]
      exact completeWord_none b.cfg f.word
    · rw [edge_of_flying hrst hb (Nat.lt_of_not_le hlast)]
      exact hregs
  | none =>
    cases hw : b.accepts p with
    | some w =>
      rw [edge_of_accepting hrst hb hw]
      exact hregs
    | none => rwa [edge_of_idle hrst hb hw]

theorem run_regs_none {ps : List Pins} {b : Block} (hrst : ∀ p ∈ ps, p.rst = false) (hregs : b.regs = none) :
    (Block.run ps b).regs = none := by
  induction ps generalizing b with
  | nil => exact hregs
  | cons p rest ih =>
    obtain ⟨hp, hrest⟩ := List.forall_mem_cons.mp hrst
    exact ih hrest (edge_regs_none hp hregs)

/-- Settles O59: no edge without reset defines a register, and a reset edge defines them all. -/
theorem onlyResetRecovers : Obligations.OnlyResetRecovers := by
  refine fun ps b hregs => ⟨fun hrst => run_regs_none hrst hregs, fun p hrst => ?_⟩
  rw [run_append, Block.run, edge_of_reset hrst]
  rfl

end Sys2Proof.Proofs
end

section
/-! PROOFS. Laws of the fixed-point primitives (spec 40_fixed_point.md R75 to R78): exact products and halves, the tick, and
monotonicity. -/

namespace Sys2Proof.Proofs

open Sys2Proof Sys2Proof.Machine

/-- The factor 2^32 of an integer's raw cancels the rounding of the product (R75). -/
theorem fxMul_fxInt (rnd : Rounding) {n : Int} (hlo : -2 ^ 31 ≤ n) (hhi : n ≤ 2 ^ 31 - 1) (b : FX) :
    fxMul rnd (fxInt n) b = fxNarrow (n * b.toInt) := by
  have hraw : fxRaw (fxInt n) = n * fxOne := toInt_fxInt (by omega) (by omega)
  have hcancel : n * fxOne * b.toInt / fxOne = n * b.toInt := by
    rw [mul_right_comm, Int.mul_ediv_cancel _ (by decide)]
  rw [fxMul, roundedQuotient_eq, hraw, fxRaw, hcancel]

/-- Settles O23: the product is the range check of the exact integer. -/
theorem integerTimesFixedIsExact : Obligations.IntegerTimesFixedIsExact := by
  intro rnd n b hlo hhi
  rw [fxMul_fxInt rnd hlo hhi]
  exact ⟨fun hfits => ⟨_, fxNarrow_eq_some.mpr ⟨hfits, rfl⟩, toInt_ofInt_of_fits hfits⟩, fxNarrow_eq_none.mpr⟩

/-- Settles O24: dividing by the raw 2 * 2^32 is halving the raw, which is the shift, and a half always fits. -/
theorem halvingIsArithmeticShift : Obligations.HalvingIsArithmeticShift := by
  intro rnd a
  have htwo : (fxInt 2).toInt = 2 * 0x100000000 := by decide
  have hhalf : a.toInt * 0x100000000 / (fxInt 2).toInt = a.toInt / 2 := by
    rw [htwo]
    exact Int.mul_ediv_mul_of_pos_left _ _ (by decide)
  have hshift : (a.sshiftRight 1).toInt = a.toInt / 2 := by
    rw [BitVec.toInt_sshiftRight, Int.shiftRight_eq_div_pow]
    rfl
  rw [fxDiv_eq_some (by decide), hhalf, ← hshift, BitVec.ofInt_toInt]
  exact ⟨fitsFX_raw _, rfl⟩

theorem tickRaw_eq_natCast (t : U16) : tickRaw t = (t.toNat * 0x100000000 / 1000 : ℕ) := by
  rw [tickRaw]
  push_cast
  rfl

/-- 2^32 / 1000 in lowest terms has the denominator 125. -/
theorem thousand_dvd_mul_iff (n : ℕ) : 1000 ∣ n * 0x100000000 ↔ 125 ∣ n := by
  rw [show 1000 = 125 * 8 from rfl, show 0x100000000 = 536870912 * 8 from rfl, ← mul_assoc,
    Nat.mul_dvd_mul_iff_right (by decide)]
  exact (show Nat.Coprime 125 536870912 by decide).dvd_mul_right

/-- The tick is exact exactly when 125 divides it (R77). -/
theorem tickRaw_exact_iff (t : U16) : tickRaw t * 1000 = t.toNat * 2 ^ 32 ↔ 125 ∣ t.toNat := by
  rw [tickRaw_eq_natCast, ← thousand_dvd_mul_iff, Nat.dvd_iff_div_mul_eq]
  norm_cast

/-- Settles O25: the conversion is `tickRaw`, which is a floor. -/
theorem tickConversion : Obligations.TickConversion := by
  intro rnd t
  have hfloor := ediv_eq_floor ((t.toNat : Int) * 2 ^ 32) (d := 1000) (by decide)
  refine ⟨BitVec.ofInt 64 (tickRaw t), tickSeconds_eq rnd t, ?_⟩
  obtain ⟨hlo, hhi⟩ := tickRaw_bounds t
  rw [toInt_tick]
  refine ⟨?_, tickRaw_exact_iff t, hlo, by omega⟩
  rw [tickRaw]
  norm_num at hfloor ⊢
  exact hfloor

/-- Narrowing keeps the order of the raws it answers. -/
theorem toInt_le_of_fxNarrow {r r' : Int} {x x' : FX} (h : fxNarrow r = some x) (h' : fxNarrow r' = some x')
    (hle : r ≤ r') : x.toInt ≤ x'.toInt := by
  rwa [toInt_of_fxNarrow_eq_some h, toInt_of_fxNarrow_eq_some h']

/-- Settles O26: each primitive is a floor, or a maximum and a minimum, of something non-decreasing; `fx_div` answers only
for a positive divisor. -/
theorem primitivesAreMonotone : Obligations.PrimitivesAreMonotone := by
  refine ⟨fun rnd a a' b x x' hle => ⟨fun hb hx hx' => ?_, fun hx hx' => ?_, ?_⟩, fun m n hle => ?_⟩
  · rw [fxMul, roundedQuotient_eq] at hx hx'
    exact toInt_le_of_fxNarrow hx hx' (Int.ediv_le_ediv (by decide) (Int.mul_le_mul_of_nonneg_right hle hb))
  · by_cases hb : 0 < fxRaw b
    · rw [fxDiv, if_pos hb, roundedQuotient_eq] at hx hx'
      exact toInt_le_of_fxNarrow hx hx' (Int.ediv_le_ediv hb (Int.mul_le_mul_of_nonneg_right hle (by decide)))
    · rw [fxDiv, if_neg hb] at hx
      cases hx
  · rw [fxFloor, fxFloor, roundedQuotient_eq, roundedQuotient_eq]
    exact Int.ediv_le_ediv (by decide) hle
  · rw [clamp127_eq_max_min, clamp127_eq_max_min]
    omega

end Sys2Proof.Proofs
end

section
/-! PROOFS. `KIN.UPDATE` (spec 41_kinematics.md R85, R92, R94, R95, R97): what it computes, saturation, the tick 0, zero
input, and the velocity that a varying tick leaves. -/

namespace Sys2Proof.Proofs

open Sys2Proof Sys2Proof.Machine

/-! ### The command in exact integers -/

/-- Where no value of a lane overflows, the lane answers the sample, the exact velocity and the clamped output. -/
theorem laneX_of_fits {sx : I16} {k : U16} {s : State} (hm : 0 < s.cfg.maxAccel.toInt) (h : (traceX sx k s).Fits) :
    laneX sx k s =
      some ⟨sampleX sx, BitVec.ofInt 64 (traceX sx k s).v1, u8 (clamp127 (traceX sx k s).output)⟩ := by
  rw [laneX, lane_eq_some hm, toInt_sampleX, toInt_tick]
  exact ⟨h, rfl⟩

theorem laneY_of_fits {sy : I16} {k : U16} {s : State} (hm : 0 < s.cfg.maxAccel.toInt) (h : (traceY sy k s).Fits) :
    laneY sy k s =
      some ⟨sampleY s.cfg sy, BitVec.ofInt 64 (traceY sy k s).v1, u8 (clamp127 (traceY sy k s).output)⟩ := by
  rw [laneY, lane_eq_some hm, toInt_sampleY, toInt_tick]
  exact ⟨h, rfl⟩

/-- Where no value of either lane overflows, `KIN.UPDATE` completes with what the two lanes compute (R85). -/
theorem exec_kinUpdate_of_fits {sx sy : I16} {k : U16} {s : State} (hm : 0 < s.cfg.maxAccel.toInt)
    (hx : (traceX sx k s).Fits) (hy : (traceY sy k s).Fits) :
    exec (.kinUpdate sx sy k) s = .next (s.writeKinematics
      ⟨sampleX sx, BitVec.ofInt 64 (traceX sx k s).v1, u8 (clamp127 (traceX sx k s).output)⟩
      ⟨sampleY s.cfg sy, BitVec.ofInt 64 (traceY sy k s).v1, u8 (clamp127 (traceY sy k s).output)⟩) :=
  exec_kinUpdate_of_lanes hm (laneX_of_fits hm hx) (laneY_of_fits hm hy)

/-- The displacement as the statements write it. -/
theorem u8_clamp127 (n : Int) : u8 (clamp127 n) = BitVec.ofInt 8 (max (-127) (min 127 n)) := by
  rw [clamp127_eq_max_min, min_comm, u8]

theorem fxInt_eq (n : Int) : fxInt n = BitVec.ofInt 64 (n * 2 ^ 32) := by
  rw [fxInt, fxOne_eq]
  norm_num

/-- Settles O27: the completing case writes what the lanes compute; the other is the fault of R134. -/
theorem kinUpdateIsTheLaneComputation : Obligations.KinUpdateIsTheLaneComputation := by
  intro sx sy k s hm
  refine ⟨fun hx hy => ?_, (exec_kinUpdate_fault_iff_not_fits hm).mpr⟩
  rw [exec_kinUpdate_of_fits hm hx hy, State.writeKinematics, u8_clamp127, u8_clamp127, sampleX, sampleY, fxInt_eq,
    fxInt_eq, applySign_eq]
  rfl

/-- The clamped output is at a limit exactly when the output reaches it. -/
theorem displacement_limits (n : Int) :
    ((u8 (clamp127 n)).toInt = 127 ↔ 127 ≤ n) ∧ ((u8 (clamp127 n)).toInt = -127 ↔ n ≤ -127) := by
  rw [toInt_displacement, clamp127_eq_max_min]
  omega

/-- Settles O30: the displacements are clamped outputs, and the velocity is the exact one, which fits. -/
theorem displacementsSaturate : Obligations.DisplacementsSaturate := by
  intro sx sy k s t h
  obtain ⟨-, hx, hy, rfl⟩ := execKinUpdate_next h
  obtain ⟨hxlo, hxhi⟩ := displacement_bounds (traceX sx k s).output
  obtain ⟨hylo, hyhi⟩ := displacement_bounds (traceY sy k s).output
  obtain ⟨hx127, hxneg⟩ := displacement_limits (traceX sx k s).output
  obtain ⟨hy127, hyneg⟩ := displacement_limits (traceY sy k s).output
  exact ⟨hxlo, hxhi, hylo, hyhi, hx127, hxneg, hy127, hyneg, toInt_ofInt_of_fits hx.v1, toInt_ofInt_of_fits hy.v1⟩

/-! ### The tick 0 -/

/-- With the tick 0 a lane computes the difference of the samples, the velocity as it was, and zeros (R97). -/
theorem laneTrace_zero_tick (cfg : Config) (c pa v : Int) :
    laneTrace cfg c pa v 0 = ⟨c - pa, 0, v, 0, 0, 0, 0, 0, 0, 0⟩ := by
  simp [laneTrace]

theorem fitsFX_zero : fitsFX 0 := by decide

theorem laneTrace_zero_tick_fits {cfg : Config} {c pa v : Int} (ha : fitsFX (c - pa)) (hv : fitsFX v) :
    (laneTrace cfg c pa v 0).Fits := by
  rw [laneTrace_zero_tick]
  exact ⟨ha, fitsFX_zero, hv, fitsFX_zero, fitsFX_zero, fitsFX_zero, fitsFX_zero, fitsFX_zero, fitsFX_zero, fitsFX_zero⟩

theorem toInt_of_fxIntegerIn {lo hi : Int} {a : FX} (hlo : -32768 ≤ lo) (hhi : hi ≤ 32768) (h : fxIntegerIn lo hi a) :
    -32768 * 0x100000000 ≤ a.toInt ∧ a.toInt ≤ 32768 * 0x100000000 := by
  obtain ⟨n, h1, h2, rfl⟩ := h
  rw [toInt_fxInt (by omega) (by omega)]
  omega

/-- The y operand with `Y_SIGN` applied, as an exact integer. -/
theorem ySignValue_mul_bounds (g : Sign) (sy : I16) :
    -32768 ≤ ySignValue g * sy.toInt ∧ ySignValue g * sy.toInt ≤ 32768 :=
  applySign_eq g sy.toInt ▸ applySign_sext16_bounds g sy

theorem tickRaw_zero : tickRaw 0#16 = 0 := by decide

/-- Settles O31: in the reachable form the differences of the samples fit, and nothing else is computed. -/
theorem zeroTickStoresTheSampleOnly : Obligations.ZeroTickStoresTheSampleOnly := by
  intro sx sy s hm hinv
  obtain ⟨hpx, hpx'⟩ := toInt_of_fxIntegerIn (by decide) (by decide) hinv.pax_integer
  obtain ⟨hpy, hpy'⟩ := toInt_of_fxIntegerIn (by decide) (by decide) hinv.pay_integer
  have hsx : -32768 ≤ sx.toInt ∧ sx.toInt ≤ 32767 := sext16_bounds sx
  have hsy := ySignValue_mul_bounds s.cfg.ySign sy
  have hx : (traceX sx 0#16 s).Fits := by
    rw [traceX, tickRaw_zero]
    exact laneTrace_zero_tick_fits (by constructor <;> omega) (fitsFX_raw _)
  have hy : (traceY sy 0#16 s).Fits := by
    rw [traceY, tickRaw_zero]
    exact laneTrace_zero_tick_fits (by constructor <;> omega) (fitsFX_raw _)
  rw [exec_kinUpdate_of_fits hm hx hy, traceX, traceY, tickRaw_zero, laneTrace_zero_tick, laneTrace_zero_tick]
  simp only [BitVec.ofInt_toInt, sampleX, sampleY, applySign_eq]
  rfl

/-! ### Zero input -/

/-- From a zero sample and a zero velocity a zero sample computes zeros (R94). -/
theorem laneTrace_zero_input (cfg : Config) (dt : Int) : laneTrace cfg 0 0 0 dt = ⟨0, 0, 0, 0, 0, 0, 0, 0, 0, 0⟩ := by
  simp [laneTrace]

theorem laneTrace_zero_input_fits (cfg : Config) (dt : Int) : (laneTrace cfg 0 0 0 dt).Fits := by
  rw [laneTrace_zero_input]
  constructor <;> exact fitsFX_zero

theorem traceX_zero_input {s : State} (hpax : s.pax = 0#64) (hvx : s.vx = 0#64) (k : U16) :
    traceX 0#16 k s = laneTrace s.cfg 0 0 0 (tickRaw k) := by
  rw [traceX, hpax, hvx]
  rfl

theorem traceY_zero_input {s : State} (hpay : s.pay = 0#64) (hvy : s.vy = 0#64) (k : U16) :
    traceY 0#16 k s = laneTrace s.cfg 0 0 0 (tickRaw k) := by
  simp [traceY, hpay, hvy]

/-- A zero sample from zero kinematics completes and leaves them zero. -/
theorem exec_zero_input {s : State} (hm : 0 < s.cfg.maxAccel.toInt) (hpax : s.pax = 0#64) (hpay : s.pay = 0#64)
    (hvx : s.vx = 0#64) (hvy : s.vy = 0#64) (k : U16) :
    exec (.kinUpdate 0#16 0#16 k) s = .next { s with dx := 0#8, dy := 0#8 } := by
  have hx := traceX_zero_input hpax hvx k
  have hy := traceY_zero_input hpay hvy k
  have hsy : sampleY s.cfg 0#16 = 0#64 := by
    cases hsign : s.cfg.ySign <;> simp only [sampleY, hsign] <;> rfl
  rw [exec_kinUpdate_of_fits hm (hx ▸ laneTrace_zero_input_fits _ _) (hy ▸ laneTrace_zero_input_fits _ _), hx, hy,
    laneTrace_zero_input, hsy]
  obtain ⟨⟨pax, pay, vx, vy, dx, dy, ea, eb, el, er, mp, kp⟩, cfg, inputs⟩ := s
  cases hpax; cases hpay; cases hvx; cases hvy
  rfl

/-- Settles O32: every command of the list finds the kinematics zero. -/
theorem zeroInputStaysZero : Obligations.ZeroInputStaysZero := by
  intro k ticks s hm hpax hpay hvx hvy
  induction ticks generalizing k s with
  | nil => exact (execAll_singleton _ s).trans (exec_zero_input hm hpax hpay hvx hvy k)
  | cons k' rest ih =>
    exact (execAll_cons_of_next (exec_zero_input hm hpax hpay hvx hvy k)).trans
      (ih k' { s with dx := 0#8, dy := 0#8 } hm hpax hpay hvx hvy)

/-! ### A varying tick -/

/-- What `KIN.UPDATE` leaves in the sample and the velocity of the x lane. -/
theorem laneX_of_kinUpdate_next {sx sy : I16} {k : U16} {s t : State} (h : exec (.kinUpdate sx sy k) s = .next t) :
    t.pax = fxInt sx.toInt ∧
      t.vx = BitVec.ofInt 64 (s.vx.toInt + (sx.toInt * 0x100000000 - s.pax.toInt) * tickRaw k / 0x100000000) := by
  obtain ⟨-, -, -, rfl⟩ := execKinUpdate_next h
  exact ⟨rfl, rfl⟩

/-- Zero samples from a zero sample keep the velocity of the x lane, whatever the ticks. -/
theorem vx_of_zero_samples {ks : List U16} {t u : State} (hpax : t.pax = fxInt 0)
    (h : execAll (ks.map (.kinUpdate 0#16 0#16)) t = .next u) : u.vx = t.vx ∧ u.pax = fxInt 0 := by
  induction ks generalizing t with
  | nil =>
    cases h
    exact ⟨rfl, hpax⟩
  | cons k rest ih =>
    obtain ⟨v, hexec, hrest⟩ := execAll_cons_next h
    obtain ⟨hvpax, hvvx⟩ := laneX_of_kinUpdate_next hexec
    have hzero : (fxInt 0).toInt = 0 := by decide
    have hkept : v.vx = t.vx := by
      rw [hvvx, hpax, hzero]
      simp
    obtain ⟨huvx, hupax⟩ := ih hvpax hrest
    exact ⟨huvx.trans hkept, hupax⟩

/-- Settles O37: the sample 300 for half a second gives 150, its fall over a quarter of a second takes back 75, and the other
75 stay. -/
theorem varyingTickLeavesVelocity : Obligations.VaryingTickLeavesVelocity := by
  intro s t ks u hs h hks
  obtain ⟨s1, h1, h⟩ := execAll_cons_next h
  obtain ⟨s2, h2, h⟩ := execAll_cons_next h
  have h3 : exec (.kinUpdate 0#16 0#16 500#16) s2 = .next t := (execAll_singleton _ s2).symm.trans h
  obtain ⟨hpax1, hvx1⟩ := laneX_of_kinUpdate_next h1
  obtain ⟨hpax2, hvx2⟩ := laneX_of_kinUpdate_next h2
  obtain ⟨hpax3, hvx3⟩ := laneX_of_kinUpdate_next h3
  have hv1 : s1.vx = fxInt 150 := by
    rw [hvx1, hs]
    decide
  have hv2 : s2.vx = fxInt 75 := by
    rw [hvx2, hv1, hpax1]
    decide
  have hv3 : t.vx = fxInt 75 := by
    rw [hvx3, hv2, hpax2]
    decide
  have hp3 : t.pax = fxInt 0 := hpax3
  obtain ⟨huvx, hupax⟩ := vx_of_zero_samples hp3 hks
  exact ⟨hv3, hp3, huvx.trans hv3, hupax⟩

end Sys2Proof.Proofs
end

section
/-! PROOFS. The constant tick (spec 41_kinematics.md R91, R93, R94): each velocity is its sample times the tick, so the past
is forgotten, and under three inequalities on the constants no value of a lane overflows. -/

namespace Sys2Proof.Proofs

open Sys2Proof Sys2Proof.Machine

/-! ### One lane in the constant-tick form -/

/-- The constant-tick form of one lane: the previous sample is the integer `n`, and the velocity is `n` times the tick. -/
structure LaneForm (k : U16) (n : Int) (pa v : FX) : Prop where
  lo : -32768 ≤ n
  hi : n ≤ 32768
  sample : pa = fxInt n
  velocity : v.toInt = n * tickRaw k

theorem LaneForm.toInt_sample {k : U16} {n : Int} {pa v : FX} (h : LaneForm k n pa v) : pa.toInt = n * 0x100000000 := by
  obtain ⟨hlo, hhi, rfl, -⟩ := h
  exact toInt_fxInt (by omega) (by omega)

/-- The integer of the form determines the registers. -/
theorem LaneForm.unique {k : U16} {n : Int} {pa v pa' v' : FX} (h : LaneForm k n pa v) (h' : LaneForm k n pa' v') :
    pa' = pa ∧ v' = v :=
  ⟨h'.sample.trans h.sample.symm, BitVec.eq_of_toInt_eq (h'.velocity.trans h.velocity.symm)⟩

/-- A lane of integer samples `m` after `n`, the velocity being `n` times the tick. -/
abbrev tickTrace (cfg : Config) (m n T : Int) : LaneTrace :=
  laneTrace cfg (m * 0x100000000) (n * 0x100000000) (n * T) T

theorem tickTrace_a (cfg : Config) (m n T : Int) : (tickTrace cfg m n T).a = (m - n) * 0x100000000 :=
  (sub_mul m n _).symm

/-- The velocity changes by exactly the difference of the samples times the tick (R91). -/
theorem tickTrace_dv (cfg : Config) (m n T : Int) : (tickTrace cfg m n T).dv = (m - n) * T := by
  have hdv : (tickTrace cfg m n T).dv = (tickTrace cfg m n T).a * T / 0x100000000 := rfl
  rw [hdv, tickTrace_a, mul_right_comm]
  exact Int.mul_ediv_cancel _ (by decide)

/-- The differences telescope: the new velocity is the new sample times the tick (R91). -/
theorem tickTrace_v1 (cfg : Config) (m n T : Int) : (tickTrace cfg m n T).v1 = m * T := by
  have hv1 : (tickTrace cfg m n T).v1 = n * T + (tickTrace cfg m n T).dv := rfl
  rw [hv1, tickTrace_dv]
  ring

theorem tickTrace_d1 (cfg : Config) (m n T : Int) : (tickTrace cfg m n T).d1 = m * T * T / 0x100000000 := by
  have hd1 : (tickTrace cfg m n T).d1 = (tickTrace cfg m n T).v1 * T / 0x100000000 := rfl
  rw [hd1, tickTrace_v1]

theorem tickTrace_dvdt (cfg : Config) (m n T : Int) :
    (tickTrace cfg m n T).dvdt = (m - n) * T * T / 0x100000000 := by
  have hdvdt : (tickTrace cfg m n T).dvdt = (tickTrace cfg m n T).dv * T / 0x100000000 := rfl
  rw [hdvdt, tickTrace_dv]

theorem traceX_of_laneForm {k : U16} {n : Int} {s : State} (h : LaneForm k n s.pax s.vx) (sx : I16) :
    traceX sx k s = tickTrace s.cfg sx.toInt n (tickRaw k) := by
  rw [traceX, h.toInt_sample, h.velocity]

theorem traceY_of_laneForm {k : U16} {n : Int} {s : State} (h : LaneForm k n s.pay s.vy) (sy : I16) :
    traceY sy k s = tickTrace s.cfg (ySignValue s.cfg.ySign * sy.toInt) n (tickRaw k) := by
  rw [traceY, h.toInt_sample, h.velocity]

/-- A sample that fits the form, stored with the velocity the lane computes, has the form. -/
theorem laneForm_of_tickTrace {cfg : Config} {k : U16} {m n : Int} (hlo : -32768 ≤ m) (hhi : m ≤ 32768)
    (hfits : fitsFX (tickTrace cfg m n (tickRaw k)).v1) :
    LaneForm k m (fxInt m) (BitVec.ofInt 64 (tickTrace cfg m n (tickRaw k)).v1) :=
  ⟨hlo, hhi, rfl, (toInt_ofInt_of_fits hfits).trans (tickTrace_v1 cfg m n (tickRaw k))⟩

/-! ### Both lanes -/

/-- The constant-tick form of both lanes, for given integer samples. -/
structure TickFormAt (k : U16) (nx ny : Int) (s : Regs) : Prop where
  x_lane : LaneForm k nx s.pax s.vx
  y_lane : LaneForm k ny s.pay s.vy

theorem tickFormAt_of_tickForm {k : U16} {s : Regs} (h : TickForm k s) : ∃ nx ny, TickFormAt k nx ny s := by
  obtain ⟨⟨nx, hxlo, hxhi, hpax, hvx⟩, ny, hylo, hyhi, hpay, hvy⟩ := h
  exact ⟨nx, ny, ⟨hxlo, by omega, hpax, hvx⟩, ⟨hylo, hyhi, hpay, hvy⟩⟩

/-- A `KIN.UPDATE` with the tick leaves the form of its own samples. -/
theorem TickFormAt.kinUpdate {k : U16} {nx ny : Int} {sx sy : I16} {s t : State} (h : TickFormAt k nx ny s.toRegs)
    (ht : exec (.kinUpdate sx sy k) s = .next t) :
    TickFormAt k sx.toInt (ySignValue s.cfg.ySign * sy.toInt) t.toRegs := by
  obtain ⟨-, hfx, hfy, rfl⟩ := execKinUpdate_next ht
  have hx := hfx.v1
  have hy := hfy.v1
  rw [traceX_of_laneForm h.x_lane] at hx
  rw [traceY_of_laneForm h.y_lane] at hy
  have hsx : -32768 ≤ sx.toInt ∧ sx.toInt ≤ 32767 := sext16_bounds sx
  obtain ⟨hsylo, hsyhi⟩ := ySignValue_mul_bounds s.cfg.ySign sy
  rw [traceX_of_laneForm h.x_lane, traceY_of_laneForm h.y_lane, sampleX, sampleY, applySign_eq]
  exact ⟨laneForm_of_tickTrace hsx.1 (by omega) hx, laneForm_of_tickTrace hsylo hsyhi hy⟩

/-- The other commands keep the form: they do not touch the kinematics. -/
theorem TickFormAt.of_not_kinUpdate {k : U16} {nx ny : Int} {i : Instr} {s t : State}
    (h : TickFormAt k nx ny s.toRegs) (hi : ∀ sx sy k, i ≠ .kinUpdate sx sy k) (ht : exec i s = .next t) :
    TickFormAt k nx ny t.toRegs := by
  obtain ⟨sx, sy, k, x, y, rfl, -⟩ | ⟨dx, dy, a, b, -, rfl⟩ | ⟨x, a, b, -, rfl⟩ := exec_next ht
  · exact absurd rfl (hi sx sy k)
  · exact ⟨h.x_lane, h.y_lane⟩
  · exact ⟨h.x_lane, h.y_lane⟩

theorem TickFormAt.tickForm {k : U16} {nx ny : Int} {s : Regs} (h : TickFormAt k nx ny s) (hx : nx ≤ 32767) :
    TickForm k s :=
  ⟨⟨nx, h.x_lane.lo, hx, h.x_lane.sample, h.x_lane.velocity⟩,
    ny, h.y_lane.lo, h.y_lane.hi, h.y_lane.sample, h.y_lane.velocity⟩

theorem eq_of_hasTick {k k' : U16} {sx sy : I16} (h : hasTick k (.kinUpdate sx sy k') = true) : k' = k :=
  eq_of_beq h

/-- A command under the constant tick that completes keeps the constant-tick form. -/
theorem exec_keeps_tickForm {k : U16} {i : Instr} {s t : State} (h : TickForm k s.toRegs) (hi : hasTick k i = true)
    (ht : exec i s = .next t) : TickForm k t.toRegs := by
  cases i with
  | kinUpdate sx sy k' =>
    cases eq_of_hasTick hi
    obtain ⟨nx, ny, hat⟩ := tickFormAt_of_tickForm h
    exact (hat.kinUpdate ht).tickForm (sext16_bounds sx).2
  | mouseEncode dx dy a b =>
    cases (exec_mouseEncode dx dy a b s).symm.trans ht
    exact ⟨h.x_lane, h.y_lane⟩
  | keyEncode x a b =>
    cases (exec_keyEncode x a b s).symm.trans ht
    exact ⟨h.x_lane, h.y_lane⟩

/-! ### No overflow (R93) -/

/-- A value whose real size, |r| / 2^32, is at most `X`. -/
def SizeLe (r : Int) (X : ℚ) : Prop := |(r : ℚ)| ≤ X * 2 ^ 32

theorem SizeLe.fits {r : Int} {X : ℚ} (h : SizeLe r X) (hX : X < 2 ^ 31) : fitsFX r := by
  have hlt : |(r : ℚ)| < 2 ^ 63 := by
    rw [SizeLe] at h
    linarith
  obtain ⟨hlo, hhi⟩ := abs_lt.mp hlt
  have hlo' : -(2 ^ 63) < r := by exact_mod_cast hlo
  have hhi' : r < 2 ^ 63 := by exact_mod_cast hhi
  constructor <;> omega

/-- Rounding down moves a quotient by less than one ulp. -/
theorem abs_ediv_le (x : Int) {d : Int} (hd : 0 < d) : |((x / d : Int) : ℚ)| ≤ |(x : ℚ)| / d + 1 := by
  have hd' : (0 : ℚ) < d := by exact_mod_cast hd
  have hle := Int.floor_le ((x : ℚ) / d)
  have hlt := Int.lt_floor_add_one ((x : ℚ) / d)
  have hneg := neg_abs_le ((x : ℚ) / d)
  have hpos := le_abs_self ((x : ℚ) / d)
  have habs : |(x : ℚ) / d| = |(x : ℚ)| / d := by rw [abs_div, abs_of_pos hd']
  rw [ediv_eq_floor x hd, ← habs, abs_le]
  constructor <;> linarith

/-- A rounded product with a constant of real size `K` (R69). -/
theorem SizeLe.mul {r c : Int} {X K : ℚ} (h : SizeLe r X) (hK : K = |(c : ℚ)| / 2 ^ 32) :
    SizeLe (r * c / 0x100000000) (X * K + 1) := by
  have hround := abs_ediv_le (r * c) (d := 0x100000000) (by decide)
  have hprod : |(r : ℚ)| * |(c : ℚ)| ≤ X * 2 ^ 32 * |(c : ℚ)| := mul_le_mul_of_nonneg_right h (abs_nonneg _)
  push_cast [abs_mul] at hround
  rw [SizeLe, hK]
  linarith

/-- A rounded quotient by a positive constant of real size `K` (R70). -/
theorem SizeLe.div {r c : Int} {X K : ℚ} (h : SizeLe r X) (hc : 0 < c) (hK : K = |(c : ℚ)| / 2 ^ 32) :
    SizeLe (r * 0x100000000 / c) (X / K + 1) := by
  have hc' : (0 : ℚ) < c := by exact_mod_cast hc
  have hround := abs_ediv_le (r * 0x100000000) hc
  have hquot : |(r : ℚ)| * 2 ^ 32 / c ≤ X * 2 ^ 32 * 2 ^ 32 / c := by
    rw [SizeLe] at h
    gcongr
  have hX : X / K * 2 ^ 32 = X * 2 ^ 32 * 2 ^ 32 / c := by
    rw [hK, abs_of_pos hc']
    field_simp
  push_cast [abs_mul] at hround
  norm_num at hround hquot hX
  rw [SizeLe]
  linarith

/-- The three inequalities of R93 on the constants of a configuration. -/
structure ConstantsSafe (c : Config) (S M U : ℚ) : Prop where
  maxAccel_pos : 0 < c.maxAccel.toInt
  scaling : S = |(c.scalingFactor.toInt : ℚ)| / 2 ^ 32
  divisor : M = |(c.maxAccel.toInt : ℚ)| / 2 ^ 32
  unit : U = |(c.maxMovementUnit.toInt : ℚ)| / 2 ^ 32
  scaled : 2 ^ 29 * S + 1 < 2 ^ 31
  divided : (2 ^ 29 * S + 1) / M + 1 < 2 ^ 31
  moved : ((2 ^ 29 * S + 1) / M + 1) * U + 1 < 2 ^ 31

/-- A difference times the tick times the tick, for the largest tick. -/
theorem abs_mul_tick_tick_le {d N T : Int} (hd : |d| ≤ N) (hT : 0 ≤ T) (hT' : T ≤ 281470681743) :
    |d * T * T| ≤ N * (281470681743 * 281470681743) := by
  rw [mul_assoc, abs_mul, abs_of_nonneg (mul_nonneg hT hT)]
  have hTT : T * T ≤ 281470681743 * 281470681743 := mul_le_mul hT' hT' hT (by decide)
  exact mul_le_mul hd hTT (mul_nonneg hT hT) (le_trans (abs_nonneg d) hd)

/-- Under the inequalities no value of a lane in the constant-tick form overflows (R93). -/
theorem tickTrace_fits {cfg : Config} {S M U : ℚ} (hc : ConstantsSafe cfg S M U) {m n T : Int} (hm : |m| ≤ 32768)
    (hn : |n| ≤ 32768) (hT : 0 ≤ T) (hT' : T ≤ 281470681743) : (tickTrace cfg m n T).Fits := by
  have hmn : |m - n| ≤ 65536 := by
    have htri := abs_sub m n
    omega
  have hmT : |m * T| ≤ 32768 * 281470681743 := by
    rw [abs_mul, abs_of_nonneg hT]
    exact mul_le_mul hm hT' hT (by decide)
  have hmnT : |(m - n) * T| ≤ 65536 * 281470681743 := by
    rw [abs_mul, abs_of_nonneg hT]
    exact mul_le_mul hmn hT' hT (by decide)
  have hmTT := abs_mul_tick_tick_le hm hT hT'
  have hmnTT := abs_mul_tick_tick_le hmn hT hT'
  rw [abs_le] at hm hn hmn hmT hmnT hmTT hmnTT
  have hd1 := tickTrace_d1 cfg m n T
  have hdvdt := tickTrace_dvdt cfg m n T
  have hd2 : (tickTrace cfg m n T).d2 = (tickTrace cfg m n T).dvdt / 2 := rfl
  have hdist : (tickTrace cfg m n T).dist = (tickTrace cfg m n T).d1 + (tickTrace cfg m n T).d2 := rfl
  have hsize : SizeLe (tickTrace cfg m n T).dist (2 ^ 29) := by
    have hint : |(tickTrace cfg m n T).dist| ≤ 2 ^ 61 := by
      rw [abs_le]
      omega
    rw [SizeLe]
    norm_num
    exact_mod_cast hint
  have ho1 : SizeLe (tickTrace cfg m n T).o1 (2 ^ 29 * S + 1) := hsize.mul hc.scaling
  have ho2 : SizeLe (tickTrace cfg m n T).o2 ((2 ^ 29 * S + 1) / M + 1) := ho1.div hc.maxAccel_pos hc.divisor
  have ho3 : SizeLe (tickTrace cfg m n T).o3 (((2 ^ 29 * S + 1) / M + 1) * U + 1) := ho2.mul hc.unit
  exact {
    a := by rw [tickTrace_a]; constructor <;> omega
    dv := by rw [tickTrace_dv]; constructor <;> omega
    v1 := by rw [tickTrace_v1]; constructor <;> omega
    d1 := by constructor <;> omega
    dvdt := by constructor <;> omega
    d2 := by constructor <;> omega
    dist := by constructor <;> omega
    o1 := ho1.fits hc.scaled
    o2 := ho2.fits hc.divided
    o3 := ho3.fits hc.moved }

/-- Under the inequalities every command of the constant tick completes (R93). -/
theorem exec_completes_of_tickForm {k : U16} {i : Instr} {s : State} {S M U : ℚ} (hc : ConstantsSafe s.cfg S M U)
    (h : TickForm k s.toRegs) (hi : hasTick k i = true) : ∃ t, exec i s = .next t := by
  cases i with
  | kinUpdate sx sy k' =>
    cases eq_of_hasTick hi
    obtain ⟨nx, ny, hx, hy⟩ := tickFormAt_of_tickForm h
    obtain ⟨hT, hT'⟩ := tickRaw_bounds k
    have hsx : -32768 ≤ sx.toInt ∧ sx.toInt ≤ 32767 := sext16_bounds sx
    have hfx : (traceX sx k s).Fits := by
      rw [traceX_of_laneForm hx]
      exact tickTrace_fits hc (abs_le.mpr (by omega)) (abs_le.mpr ⟨hx.lo, hx.hi⟩) hT hT'
    have hfy : (traceY sy k s).Fits := by
      rw [traceY_of_laneForm hy]
      exact tickTrace_fits hc (abs_le.mpr (ySignValue_mul_bounds _ _)) (abs_le.mpr ⟨hy.lo, hy.hi⟩) hT hT'
    exact ⟨_, exec_kinUpdate_of_fits hc.maxAccel_pos hfx hfy⟩
  | mouseEncode dx dy a b => exact ⟨_, exec_mouseEncode dx dy a b s⟩
  | keyEncode x a b => exact ⟨_, exec_keyEncode x a b s⟩

/-- Settles O34: a command keeps the form, the reset registers have it, and the three inequalities bound every value of a
lane. -/
theorem everyStepKeepsTheConstantTickForm : Obligations.EveryStepKeepsTheConstantTickForm := by
  refine ⟨fun k s t h hticks hstep => ?_, fun k i s S M U h hi hm hS hM hU h1 h2 h3 => ?_⟩
  · obtain ⟨-, rfl⟩ | ⟨w, rest, i, hin, hdec, hexec⟩ | ⟨rest, -, rfl⟩ := step_next hstep
    · exact h
    · exact exec_keeps_tickForm (s := s.withInputs rest) h (hticks w rest i hin hdec) hexec
    · exact tickForm_zero k
  · obtain ⟨t, ht⟩ := exec_completes_of_tickForm ⟨hm, hS, hM, hU, h1, h2, h3⟩ h hi
    exact ⟨t, ht, exec_keeps_tickForm h hi ht⟩

/-! ### Runs under a constant tick -/

/-- From the constant-tick form every run under the tick completes. -/
theorem safeRun_of_tickForm {k : U16} {is : List Instr} {s : State} {S M U : ℚ} (hc : ConstantsSafe s.cfg S M U)
    (h : TickForm k s.toRegs) (his : is.all (hasTick k) = true) : SafeRun is s := by
  induction is generalizing s with
  | nil => exact ⟨s, rfl⟩
  | cons i rest ih =>
    obtain ⟨hi, hrest⟩ := Bool.and_eq_true_iff.mp his
    obtain ⟨t, ht⟩ := exec_completes_of_tickForm hc h hi
    obtain ⟨u, hu⟩ := ih (cfg_of_exec_next ht ▸ hc) (exec_keeps_tickForm h hi ht) hrest
    exact ⟨u, (execAll_cons_of_next ht).trans hu⟩

/-- Settles O36: the zero registers have the constant-tick form, from which every run completes. -/
theorem constantTickNeverOverflows : Obligations.ConstantTickNeverOverflows :=
  fun k _ _ _ _ _ hs hm his hS hM hU h1 h2 h3 =>
    safeRun_of_tickForm ⟨hm, hS, hM, hU, h1, h2, h3⟩ (hs ▸ tickForm_zero k) his

/-- The constant-tick form whose samples are given operands, `Y_SIGN` applied to y. -/
def HasSamples (k : U16) (p : I16 × I16) (s : State) : Prop :=
  TickFormAt k p.1.toInt (ySignValue s.cfg.ySign * p.2.toInt) s.toRegs

/-- A command under the tick leaves the form of its own samples, or of those before it where it has none. -/
theorem hasSamples_of_exec {k : U16} {i : Instr} {p : I16 × I16} {s t : State} (h : HasSamples k p s)
    (hi : hasTick k i = true) (ht : exec i s = .next t) : HasSamples k (lastSample p [i]) t := by
  have hcfg := cfg_of_exec_next ht
  rw [HasSamples, hcfg]
  cases i with
  | kinUpdate sx sy k' =>
    cases eq_of_hasTick hi
    exact TickFormAt.kinUpdate h ht
  | mouseEncode dx dy a b => exact TickFormAt.of_not_kinUpdate h (by simp) ht
  | keyEncode x a b => exact TickFormAt.of_not_kinUpdate h (by simp) ht

theorem lastSample_cons (p : I16 × I16) (i : Instr) (rest : List Instr) :
    lastSample p (i :: rest) = lastSample (lastSample p [i]) rest := by
  cases i <;> rfl

theorem hasSamples_of_execAll {k : U16} {is : List Instr} {p : I16 × I16} {s t : State} (h : HasSamples k p s)
    (his : is.all (hasTick k) = true) (ht : execAll is s = .next t) : HasSamples k (lastSample p is) t := by
  induction is generalizing p s with
  | nil =>
    cases ht
    exact h
  | cons i rest ih =>
    obtain ⟨hi, hrest⟩ := Bool.and_eq_true_iff.mp his
    obtain ⟨u, hexec, hrun⟩ := execAll_cons_next ht
    rw [lastSample_cons]
    exact ih (hasSamples_of_exec h hi hexec) hrest hrun

theorem hasSamples_zero (k : U16) {s : State} (hs : s.toRegs = Regs.zero) : HasSamples k (0#16, 0#16) s := by
  have hzero : ySignValue s.cfg.ySign * (0#16 : I16).toInt = 0 := mul_zero _
  rw [HasSamples, hs, hzero]
  exact ⟨⟨by decide, by decide, rfl, (zero_mul _).symm⟩, ⟨by decide, by decide, rfl, (zero_mul _).symm⟩⟩

theorem cfg_of_execAll_next {is : List Instr} {s t : State} (h : execAll is s = .next t) : t.cfg = s.cfg := by
  induction is generalizing s with
  | nil =>
    cases h
    rfl
  | cons i rest ih =>
    obtain ⟨u, hexec, hrest⟩ := execAll_cons_next h
    exact (ih hrest).trans (cfg_of_exec_next hexec)

/-- Settles O33: a run leaves the form of its last samples, which gives the velocities, and determines all that the next
`KIN.UPDATE` reads. -/
theorem constantTickTelescopes : Obligations.ConstantTickTelescopes := by
  intro k is is' s t t' hs his his' ht ht'
  have hcfg := cfg_of_execAll_next ht
  have hcfg' := cfg_of_execAll_next ht'
  have hform := hasSamples_of_execAll (hasSamples_zero k hs) his ht
  have hform' := hasSamples_of_execAll (hasSamples_zero k hs) his' ht'
  rw [HasSamples, hcfg] at hform
  rw [HasSamples, hcfg'] at hform'
  refine ⟨⟨hform.x_lane.velocity, hform.y_lane.velocity⟩, fun hlast sx sy u u' hu hu' => ?_⟩
  rw [hlast] at hform'
  obtain ⟨hpax, hvx⟩ := hform.x_lane.unique hform'.x_lane
  obtain ⟨hpay, hvy⟩ := hform.y_lane.unique hform'.y_lane
  have hsame := hcfg'.trans hcfg.symm
  obtain ⟨hxu, hyu⟩ := lanes_of_kinUpdate_next hu
  obtain ⟨hxu', hyu'⟩ := lanes_of_kinUpdate_next hu'
  obtain ⟨-, -, hdx⟩ := eq_of_same_lane (laneX_congr hsame hpax hvx) hxu hxu'
  obtain ⟨-, -, hdy⟩ := eq_of_same_lane (laneY_congr hsame hpay hvy) hyu hyu'
  exact ⟨hdx, hdy⟩

/-- The form of the sample 0 is the zero registers. -/
theorem LaneForm.zero {k : U16} {pa v : FX} (h : LaneForm k 0 pa v) : pa = 0#64 ∧ v = 0#64 :=
  h.unique ⟨by decide, by decide, rfl, (zero_mul _).symm⟩ |>.imp Eq.symm Eq.symm

theorem displacement_zero_input (cfg : Config) (dt : Int) : u8 (clamp127 (laneTrace cfg 0 0 0 dt).output) = 0#8 := by
  rw [laneTrace_zero_input]
  rfl

/-- Settles O35: after a sample 0 the lane's registers are zero, and a further sample 0 computes zeros. -/
theorem constantTickReturnsToZero : Obligations.ConstantTickReturnsToZero := by
  intro k is s t u sx sy hs his ht hu
  have hform := hasSamples_of_execAll (hasSamples_zero k hs) his ht
  obtain ⟨-, -, -, rfl⟩ := execKinUpdate_next hu
  refine ⟨fun hlast hsx => ?_, fun hlast hsy => ?_⟩
  · have hx := hform.x_lane
    rw [hlast, BitVec.toInt_zero] at hx
    obtain ⟨hpax, hvx⟩ := hx.zero
    rw [State.writeKinematics_dx, hsx, traceX_zero_input hpax hvx]
    exact displacement_zero_input _ _
  · have hy := hform.y_lane
    rw [hlast, BitVec.toInt_zero, mul_zero] at hy
    obtain ⟨hpay, hvy⟩ := hy.zero
    rw [State.writeKinematics_dy, hsy, traceY_zero_input hpay hvy]
    exact displacement_zero_input _ _

end Sys2Proof.Proofs
end

section
/-! PROOFS. What the host reads and writes (spec 20_memory.md R35; 42_mouse_encoder.md R102, R103; 30_encoding.md R54): the
bytes on the output ports, the operands in a mouse frame, and the lines of the assembler. -/

namespace Sys2Proof.Proofs

open Sys2Proof Sys2Proof.Machine

/-! ### The ports -/

/-- Concatenated bytes keep their bits: bit `j` of byte `i` is bit 8i+j. -/
theorem getLsbD_packBytes {n i j : Nat} {bytes : List Byte} (hi : i < bytes.length) (hj : j < 8) (hn : 8 * i + j < n) :
    (packBytes n bytes).getLsbD (8 * i + j) = bytes[i].getLsbD j := by
  induction bytes generalizing i with
  | nil => exact absurd hi (Nat.not_lt_zero i)
  | cons byte rest ih =>
    rw [packBytes, BitVec.getLsbD_or, BitVec.getLsbD_setWidth, BitVec.getLsbD_shiftLeft]
    cases i with
    | zero => simp [hj, show j < n by omega]
    | succ i =>
      have hrest := ih (Nat.lt_of_succ_lt_succ hi) (show 8 * i + j < n by omega)
      have hhigh : byte.getLsbD (8 * (i + 1) + j) = false := BitVec.getLsbD_of_ge byte _ (by omega)
      have hindex : 8 * (i + 1) + j - 8 = 8 * i + j := by omega
      simp [hhigh, hindex, hrest, hn, show ¬ 8 * (i + 1) + j < 8 by omega]

/-- Byte `i` of a buffer is bits 8i+7..8i of its port (R35). -/
theorem extractLsb'_packBytes {n i : Nat} {bytes : List Byte} (hi : i < bytes.length) (hn : 8 * i + 8 ≤ n) :
    (packBytes n bytes).extractLsb' (8 * i) 8 = bytes[i] := by
  apply BitVec.eq_of_getLsbD_eq
  intro j hj
  rw [BitVec.getLsbD_extractLsb', getLsbD_packBytes hi hj (by omega)]
  simp [hj]

/-- Settles O18: the displacements stand on their ports as they are, the buffers as their bytes concatenated. -/
theorem portsShowTheRegisters : Obligations.PortsShowTheRegisters := by
  refine fun r => ⟨rfl, rfl, fun i => ?_, fun i => ?_⟩
  · exact (extractLsb'_packBytes (by simp) (by omega)).trans (Vector.getElem_toList _)
  · exact (extractLsb'_packBytes (by simp) (by omega)).trans (Vector.getElem_toList _)

/-! ### The mouse frame -/

/-- The receiver's formulas put each operand's two parts together again (R103). -/
theorem readMouseFrame_mouseFrame (dx dy : I8) (a b : Bool) : readMouseFrame (mouseFrame dx dy a b) = ⟨dx, dy, a, b⟩ := by
  have hdx : (readMouseFrame (mouseFrame dx dy a b)).dx = dx := by
    apply BitVec.eq_of_getLsbD_eq
    intro k hk
    simp only [readMouseFrame, BitVec.getLsbD_or, BitVec.getLsbD_shiftLeft, BitVec.getLsbD_and,
      getLsbD_mouseFrame_first, getLsbD_mouseFrame_second]
    interval_cases k <;> simp
  have hdy : (readMouseFrame (mouseFrame dx dy a b)).dy = dy := by
    apply BitVec.eq_of_getLsbD_eq
    intro k hk
    simp only [readMouseFrame, BitVec.getLsbD_or, BitVec.getLsbD_shiftLeft, BitVec.getLsbD_and,
      getLsbD_mouseFrame_first, getLsbD_mouseFrame_third]
    interval_cases k <;> simp
  have ha : (readMouseFrame (mouseFrame dx dy a b)).a = a := by
    simp only [readMouseFrame, getLsbD_mouseFrame_first]
    simp
  have hb : (readMouseFrame (mouseFrame dx dy a b)).b = b := by
    simp only [readMouseFrame, getLsbD_mouseFrame_first]
    simp
  calc readMouseFrame (mouseFrame dx dy a b)
      = ⟨(readMouseFrame (mouseFrame dx dy a b)).dx, (readMouseFrame (mouseFrame dx dy a b)).dy,
          (readMouseFrame (mouseFrame dx dy a b)).a, (readMouseFrame (mouseFrame dx dy a b)).b⟩ := rfl
    _ = ⟨dx, dy, a, b⟩ := by rw [hdx, hdy, ha, hb]

/-- Settles O40: the packet is the frame of the operands, from which the receiver's formulas read them back. -/
theorem mouseFrameRecoversOperands : Obligations.MouseFrameRecoversOperands := by
  intro dx dy a b s t h
  cases (exec_mouseEncode dx dy a b s).symm.trans h
  have hread := readMouseFrame_mouseFrame dx dy a b
  exact ⟨congrArg (fun o => o.dx.toInt) hread, congrArg (fun o => o.dy.toInt) hread, congrArg MouseOperands.a hread,
    congrArg MouseOperands.b hread, hread⟩

/-- The two high bits of a byte, from its high part. -/
theorem getElem_of_high {v : Byte} {f : BitVec 2} (h : v.extractLsb' 6 2 = f) : v[6] = f[0] ∧ v[7] = f[1] := by
  subst h
  simp

/-- A framed triple is the frame of the operands read from it: the framing bits are the only others (R102). -/
theorem mouseFrame_readMouseFrame {m : Vector Byte mpLen} (h : validFrame m = true) :
    mouseFrame (readMouseFrame m).dx (readMouseFrame m).dy (readMouseFrame m).a (readMouseFrame m).b = m := by
  simp only [validFrame, Bool.and_eq_true, beq_iff_eq] at h
  obtain ⟨⟨hfirst, hsecond⟩, hthird⟩ := h
  obtain ⟨h06, h07⟩ := getElem_of_high hfirst
  obtain ⟨h16, h17⟩ := getElem_of_high hsecond
  obtain ⟨h26, h27⟩ := getElem_of_high hthird
  apply Vector.ext
  intro i hi
  apply BitVec.eq_of_getLsbD_eq
  intro k hk
  interval_cases i
  · simp only [getLsbD_mouseFrame_first, readMouseFrame, BitVec.getLsbD_or, BitVec.getLsbD_shiftLeft,
      BitVec.getLsbD_and]
    interval_cases k <;> simp [h06, h07, h16, h17, h26, h27]
  · simp only [getLsbD_mouseFrame_second, readMouseFrame, BitVec.getLsbD_or, BitVec.getLsbD_shiftLeft,
      BitVec.getLsbD_and]
    interval_cases k <;> simp [h16, h17]
  · simp only [getLsbD_mouseFrame_third, readMouseFrame, BitVec.getLsbD_or, BitVec.getLsbD_shiftLeft,
      BitVec.getLsbD_and]
    interval_cases k <;> simp [h26, h27]

/-- The ranges of the three bytes say the same as the framing bits. -/
theorem validFrame_iff (m : Vector Byte mpLen) :
    validFrame m = true ↔ 0x40 ≤ m[0].toNat ∧ m[0].toNat ≤ 0x7F ∧ m[1].toNat ≤ 0x3F ∧ m[2].toNat ≤ 0x3F := by
  have h0 := m[0].isLt
  have h1 := m[1].isLt
  have h2 := m[2].isLt
  simp only [validFrame, Bool.and_eq_true, beq_iff_eq, ← BitVec.toNat_inj, BitVec.extractLsb'_toNat,
    Nat.shiftRight_eq_div_pow, BitVec.toNat_ofNat]
  omega

/-- Settles O41: every frame is framed, and every framed triple is the frame of what the receiver reads from it. -/
theorem mouseFramesAreTheFramedTriples : Obligations.MouseFramesAreTheFramedTriples := by
  intro m s
  rw [← validFrame_iff]
  constructor
  · intro hm
    refine ⟨(readMouseFrame m).dx, (readMouseFrame m).dy, (readMouseFrame m).a, (readMouseFrame m).b, ?_⟩
    rw [exec_mouseEncode, mouseFrame_readMouseFrame hm]
  · rintro ⟨dx, dy, a, b, h⟩
    have hm : mouseFrame dx dy a b = m := congrArg Regs.mp (congrArg State.toRegs (Host.Outcome.next.inj h))
    rw [← hm]
    exact validFrame_mouseFrame dx dy a b

/-! ### The assembler -/

theorem assemble_of_not_wf {line : AsmLine} (h : line.wf = false) (ports : Ports) : assemble ports line = none := by
  rw [assemble.eq_def, h]
  rfl

/-- The pattern of an integer in range has that integer's value. -/
theorem toInt_i16 {n : Int} (h1 : -32768 ≤ n) (h2 : n ≤ 32767) : (BitVec.ofInt 16 n).toInt = n :=
  BitVec.toInt_ofInt_eq_self (by decide) h1 (Int.lt_add_one_of_le h2)

theorem toNat_u16 {n : Int} (h1 : 0 ≤ n) (h2 : n ≤ 65535) : ((BitVec.ofInt 16 n).toNat : Int) = n := by
  rw [BitVec.toNat_ofInt]
  omega

theorem displacementInRange_iff_wf (o : AsmOperand) : displacementInRange o ↔ o.wf = true := by
  cases o <;> simp [displacementInRange, AsmOperand.wf, inI8]

/-- The byte of an operand in range has the operand's value. -/
theorem displacementDenotes_of_wf {ports : Ports} {o : AsmOperand} (h : o.wf = true) :
    displacementDenotes ports (u8 (AsmOperand.value ports o)) o := by
  cases o with
  | int n =>
    obtain ⟨h1, h2⟩ := (displacementInRange_iff_wf (.int n)).mpr h
    exact toInt_u8 h1 h2
  | portDX => exact BitVec.ofInt_toInt
  | portDY => exact BitVec.ofInt_toInt

/-- Settles O60: a line in range is the word of the command with the operands' patterns, which decodes to it; another line
is refused before a word is formed. -/
theorem assemblerKeepsOperandValues : Obligations.AssemblerKeepsOperandValues := by
  refine ⟨fun ports sx sy t => ?_, fun ports dx dy a b => ⟨fun ⟨hdx, hdy⟩ => ?_, fun hout => ?_⟩, fun ports x a b => ?_,
    fun ports => rfl⟩
  · split_ifs with hin
    · obtain ⟨hx1, hx2, hy1, hy2, ht1, ht2⟩ := hin
      have hwf : (AsmLine.kinUpdate sx sy t).wf = true := by simp [AsmLine.wf, inI16, inU16, *]
      exact ⟨_, _, _, _, if_pos hwf, decode_encode _, toInt_i16 hx1 hx2, toInt_i16 hy1 hy2, toNat_u16 ht1 ht2⟩
    · apply assemble_of_not_wf
      by_contra hwf
      simp only [AsmLine.wf, inI16, inU16, Bool.not_eq_false, Bool.and_eq_true, decide_eq_true_eq] at hwf
      omega
  · rw [displacementInRange_iff_wf] at hdx hdy
    have hwf : (AsmLine.mouseEncode dx dy a b).wf = true := by simp [AsmLine.wf, hdx, hdy]
    exact ⟨_, _, _, if_pos hwf, decode_encode _, displacementDenotes_of_wf hdx, displacementDenotes_of_wf hdy⟩
  · rw [displacementInRange_iff_wf, displacementInRange_iff_wf, ← Bool.and_eq_true_iff, Bool.not_eq_true] at hout
    exact assemble_of_not_wf (line := .mouseEncode dx dy a b) hout ports
  · split_ifs with hin
    · obtain ⟨hx1, hx2⟩ := hin
      have hwf : (AsmLine.keyEncode x a b).wf = true := by simp [AsmLine.wf, inI16, *]
      exact ⟨_, _, if_pos hwf, decode_encode _, toInt_i16 hx1 hx2⟩
    · apply assemble_of_not_wf
      by_contra hwf
      simp only [AsmLine.wf, inI16, Bool.not_eq_false, Bool.and_eq_true, decide_eq_true_eq] at hwf
      omega

end Sys2Proof.Proofs
end
